-- ==== Sys2Proof/Word.lean ====
section
/-! DEFINITION. The word types of the RC6 CORE: the values the spec treats as bits (spec/10_state.md rule R20,
spec/30_encoding.md rules R70, R75 to R78). Timestamps and command words have the parameter CLK_W for their width,
which is no Lean type: they are natural numbers, reduced modulo a power of two where the spec reduces them. -/

namespace Sys2Proof

/-- One entry of the pulse-length sequence: a 3-bit unsigned value (R21, R78). -/
abbrev Entry := BitVec 3

/-- CURSOR and SUM are 6 bits wide each (R22, R23). -/
abbrev Count := BitVec 6

/-- DecodedCode, the 32-bit packed value (R77). -/
abbrev Code := BitVec 32

end Sys2Proof
end

