-- ==== Sys2Proof/Config.lean ====
section
/-! DEFINITION. What an implementation fixes: the constants of spec/00_scope.md rule R7, the parameters of rule R8, and
the free values for the response lines that a command does not drive (spec/93_implementation_defined.md U8). -/

namespace Sys2Proof.Config

/-- CAP, the capacity of the pulse-length sequence in entries (R7). -/
abbrev cap : Nat := 44

/-- FRAME_UNITS: a message is complete when SUM exceeds it (R7, R109). -/
abbrev frameUnits : Nat := 50

/-- HDR, the required first three entries (R7, R133). -/
abbrev hdr : Entry × Entry × Entry := (6#3, 2#3, 1#3)

/-- TOGGLE_OFF, the cumulative offset at which the skew compensation applies (R7, R134). -/
abbrev toggleOff : Nat := 18

/-- DEMOD_START, the cumulative offset at which demodulation starts (R7, R135). -/
abbrev demodStart : Nat := 8

/-- DEMOD_STOP, the cumulative offset at which demodulation stops (R7, R135). -/
abbrev demodStop : Nat := 49

/-- What `resp_present` carries outside a completing POLL: a free value (U8, log 5). -/
opaque undrivenPresent : Nat → Bool

/-- What `resp_code` carries when the command does not drive it: a free value (R76, U8, log 5). -/
opaque undrivenCode : Nat → Code

/-- What `resp_toggle` carries when the command does not drive it: a free value (R75, U8, log 5). -/
opaque undrivenToggle : Nat → Bool

/-- What `resp_mode` carries when the command does not drive it: a free value (R75, U8, log 5). -/
opaque undrivenMode : Nat → BitVec 3

/-- What `resp_group` carries when the command does not drive it: a free value (R75, U8, log 5). -/
opaque undrivenGroup : Nat → BitVec 8

/-- What `resp_cmd` carries when the command does not drive it: a free value (R75, U8, log 5). -/
opaque undrivenCmd : Nat → BitVec 8

end Sys2Proof.Config

namespace Sys2Proof

/-- The parameters a model takes as arguments (R8). No command writes them: a statement about every state is a
statement about every value of them (log 1). Times are in microseconds. -/
structure Params where
  /-- CLK_W, the width in bits of the microsecond clock and of LAST_TS. -/
  clkW : Nat
  /-- TH1, the lowest elapsed time that is not unit 1. -/
  th1 : Nat
  /-- TH2, the lowest elapsed time that is not unit 2. -/
  th2 : Nat
  /-- TH3, the lowest elapsed time that is not unit 3. -/
  th3 : Nat
  /-- TH4, the lowest elapsed time that is invalid. -/
  th4 : Nat
  /-- LAST_TS_INIT, the reset value of LAST_TS. -/
  lastTsInit : Nat
deriving DecidableEq, Repr

/-- The defaults of rule R8. LAST_TS_INIT is OPEN there; 0 is the value the spec's vectors use.
DESIGN CHOICE (log 2). -/
def Params.default : Params where
  clkW := 32
  th1 := 671
  th2 := 1119
  th3 := 2015
  th4 := 2911
  lastTsInit := 0

/-- The ranges of rule R8. -/
def Params.wf (p : Params) : Bool :=
  12 ≤ p.clkW && 0 < p.th1 && p.th1 < p.th2 && p.th2 < p.th3 && p.th3 < p.th4 &&
    p.th4 < 2 ^ p.clkW && p.lastTsInit < 2 ^ p.clkW

end Sys2Proof
end

