-- ==== Sys2Proof/Syntax.lean ====
section
/-! DEFINITION. The commands of the block's command port, one constructor for each row of spec/opcode_table.json
(spec/30_encoding.md rule R73). -/

namespace Sys2Proof

/-- The five commands (R2, R73). Only EDGE has an operand: `ts` is ignored under every other op (R71). -/
inductive Instr where
  /-- NOP, op 000 (R170). -/
  | nop
  /-- EDGE, op 001 (R103): `ts` is the microsecond clock value at the transition, an unsigned CLK_W-bit value (R72). -/
  | edge (ts : Nat)
  /-- POLL_CODE, op 010 (R130). -/
  | pollCode
  /-- POLL_FIELDS, op 011 (R131). -/
  | pollFields
  /-- RESET, op 100 (R171). -/
  | reset
deriving DecidableEq, Repr

end Sys2Proof
end

