-- ==== Sys2Proof/WellFormed.lean ====
section
/-! DEFINITION. Which commands a command word of a given CLK_W can carry (spec/30_encoding.md rules R71, R72). -/

namespace Sys2Proof

/-- A command that a word of CLK_W + 3 bits can carry: the operand of EDGE fits CLK_W bits (R72, R74). -/
def WellFormed (clkW : Nat) : Instr → Bool
  | .nop => true
  | .edge ts => ts < 2 ^ clkW
  | .pollCode => true
  | .pollFields => true
  | .reset => true

end Sys2Proof
end

