-- ==== Sys2Proof/Decode.lean ====
section
/-! DEFINITION. The command word of spec/30_encoding.md rules R71 to R74: `op` in bits [CLK_W+2 : CLK_W], `ts` in bits
[CLK_W-1 : 0]. The decoder, the encoder, and the table's 35-bit words. -/

namespace Sys2Proof

/-- Why a word is no command. -/
inductive DecodeError where
  /-- The op field holds 101, 110 or 111 (R74). -/
  | reservedOp (op : Nat)
  /-- The value needs more than CLK_W + 3 bits, so the port cannot carry it (R71, R79). -/
  | wordTooWide
deriving DecidableEq, Repr

/-- The command selector, bits [CLK_W+2 : CLK_W] and whatever lies above them (R71). -/
def opField (clkW word : Nat) : Nat := word / 2 ^ clkW

/-- The timestamp operand, bits [CLK_W-1 : 0] (R71, R72). -/
def tsField (clkW word : Nat) : Nat := word % 2 ^ clkW

/-- The op value of each command (R73). -/
def opOf : Instr → Nat
  | .nop => 0
  | .edge _ => 1
  | .pollCode => 2
  | .pollFields => 3
  | .reset => 4

/-- The `ts` field a command is assembled with: its operand, or 0 where the command ignores the field (R80, D4). -/
def tsOf : Instr → Nat
  | .nop => 0
  | .edge ts => ts
  | .pollCode => 0
  | .pollFields => 0
  | .reset => 0

/-- The command a word of CLK_W + 3 bits selects (R73, R74). Every command but EDGE ignores `ts` (R71). -/
def decode (clkW word : Nat) : Except DecodeError Instr :=
  if word < 2 ^ (clkW + 3) then
    match opField clkW word with
    | 0 => .ok .nop
    | 1 => .ok (.edge (tsField clkW word))
    | 2 => .ok .pollCode
    | 3 => .ok .pollFields
    | 4 => .ok .reset
    | op => .error (.reservedOp op)
  else .error .wordTooWide

/-- The command word of a command (R71, R73). -/
def encode (clkW : Nat) (i : Instr) : Nat := opOf i * 2 ^ clkW + tsOf i

/-- One row of spec/opcode_table.json at CLK_W = 32: the row's word pattern (R73). -/
structure OpcodeRow where
  /-- The row's mnemonic, as the table spells it. -/
  mnemonic : String
  /-- The bits the pattern fixes. -/
  mask : Nat
  /-- Their values. -/
  pattern : Nat
deriving DecidableEq, Repr

/-- The five rows of the command map at CLK_W = 32 (R73). -/
def opcodeTable : List OpcodeRow :=
  [⟨"NOP", 0x700000000, 0x000000000⟩,
   ⟨"EDGE", 0x700000000, 0x100000000⟩,
   ⟨"POLL_CODE", 0x700000000, 0x200000000⟩,
   ⟨"POLL_FIELDS", 0x700000000, 0x300000000⟩,
   ⟨"RESET", 0x700000000, 0x400000000⟩]

/-- A command's mnemonic (R73). -/
def mnemonic : Instr → String
  | .nop => "NOP"
  | .edge _ => "EDGE"
  | .pollCode => "POLL_CODE"
  | .pollFields => "POLL_FIELDS"
  | .reset => "RESET"

/-- The 35 bits of a table word that the port carries at CLK_W = 32: a container of whole bytes has bits above
bit 34 that no port line carries. DESIGN CHOICE (log 10). -/
def portBits (w : Nat) : Nat := w % 2 ^ 35

/-- The table's CMD35 word `w` laid out for a clock of `clkW` bits: the same op, the same `ts` (R71). At CLK_W = 32 it is
`portBits w` itself (log 10). -/
def relayWord (clkW w : Nat) : Nat :=
  opField 32 (portBits w) * 2 ^ clkW + tsField 32 (portBits w) % 2 ^ clkW

/-- The command the decoder reads from the table word `w`, at the default CLK_W = 32. Every table row fixes the whole
35-bit word, so the number of bits the table gives is not needed. -/
def decodeTableWord (_nbits w : Nat) : Option Instr :=
  match decode 32 (portBits w) with
  | .ok i => some i
  | .error _ => none

end Sys2Proof
end

