-- ==== Sys2Proof/Machine/State.lean ====
section
/-! DEFINITION. The state of the RC6 CORE as plain data: the six architectural items of spec/10_state.md rule R20, the
parameters of spec/00_scope.md rule R8, and what stands at the ports (spec/30_encoding.md rule R70). -/

namespace Sys2Proof.Machine

/-- A valid quantum: one of the units 1, 2, 3 and 6 (R7 UNITS, R78). -/
inductive Quantum where
  | u1
  | u2
  | u3
  | u6
deriving DecidableEq, Repr

/-- The pulse-length sequence SEQ, the block's one storage array (R50): the entries that hold a value, as pairs of index
and value. An index that is not listed holds no value (R21, log 7). -/
abbrev Memory := List (Nat × Entry)

/-- Indices strictly rise from `lo` on and stay below CAP. -/
def Memory.wfFrom (lo : Nat) : Memory → Bool
  | [] => true
  | (k, _) :: m => lo ≤ k && k < Config.cap && Memory.wfFrom (k + 1) m

/-- The one canonical form of SEQ: indices strictly rise, all of them in 0..43 (R50), so that equal sequences are equal
data. An unlisted index holds no value, so no entry can equal what an unlisted index reads as. -/
def Memory.wf (m : Memory) : Bool := Memory.wfFrom 0 m

/-- A code decomposed (R76, R137). -/
structure Fields where
  toggle : Bool
  mode : BitVec 3
  group : BitVec 8
  cmd : BitVec 8
deriving DecidableEq, Repr

/-- The outcomes of rules R181 and R182 with the info each one records (R11). They are no traps, and no port shows them. -/
inductive CmdOutcome where
  /-- EDGE 0: unit 1, 2 or 3 appended; SUM ≤ 50 after it. -/
  | append (u : Quantum)
  /-- EDGE 1: unit 6; the sequence emptied and the 6 appended. -/
  | leaderRestart (e : Nat)
  /-- EDGE 2: SUM > 50 after the append. -/
  | complete (cursor : Count)
  /-- EDGE 3: e ≥ TH4. -/
  | noiseReset (e : Nat)
  /-- EDGE 4: unit 1, 2 or 3 with CURSOR = 44. -/
  | overflowReset (e : Nat)
  /-- EDGE 5: CAPTURE_EN = 0. -/
  | ignored (ts : Nat)
  /-- POLL 0: MSG_READY = 0. -/
  | noMessage
  /-- POLL 1: the first three entries are not (6, 2, 1). -/
  | headerFail
  /-- POLL 2: the header holds. -/
  | decoded (code : Code)
deriving DecidableEq, Repr

/-- What the command just completed answers at the response lines (R70, R75, R76). -/
inductive Resp where
  /-- The command was no POLL: no response line is driven. -/
  | undriven
  /-- POLL_CODE's response. -/
  | code (r : Option Code)
  /-- POLL_FIELDS' response. -/
  | fields (r : Option Fields)
deriving DecidableEq, Repr

/-- The output lines of the block (R70, R81). -/
structure Ports where
  respPresent : Bool
  respCode : Code
  respToggle : Bool
  respMode : BitVec 3
  respGroup : BitVec 8
  respCmd : BitVec 8
  msgReady : Bool
  captureEn : Bool
deriving DecidableEq, Repr

/-- The states of the receiver state machine that stand between commands (R29). DECODING exists only inside one POLL. -/
inductive Phase where
  /-- IDLE/CAPTURING: MSG_READY = 0 with CAPTURE_EN = 1. -/
  | capturing
  /-- COMPLETE: MSG_READY = 1 with CAPTURE_EN = 0. -/
  | complete
deriving DecidableEq, Repr

/-- The decoder's transient values OFF, IDX, LVL and CODE (R30), which exist only inside a POLL, and the number of
samples taken so far, which the rules count (R138, R140) and nothing reads. -/
structure Walk where
  off : Nat
  idx : Nat
  lvl : Bool
  code : Code
  samples : Nat
deriving DecidableEq, Repr

/-- Why the model stops with an error. The block itself has no fault (R180); all three are unreachable from a state that
meets the invariant of rule R32 (log 9). -/
inductive Fault where
  /-- Raised by a SeqRead of an entry that holds no value: R21 demands it. Safe. -/
  | seqReadNoValue (i : Nat)
  /-- Raised by a SeqRead or SeqWrite at an index outside 0..43, which R51 excludes by its "requires". Safe. -/
  | seqIndex (i : Nat)
  /-- Raised by the compensation's decrement of an entry that is 0: the value -1 is outside the 0..7 that R51's SeqWrite
  requires. Safe. -/
  | entryUnderflow (i : Nat)
deriving DecidableEq, Repr

/-- Why the model rejects a command. -/
inductive Refusal where
  /-- Raised by exec for a command that has no meaning yet; no command of this model is left so. Safe. -/
  | notModelled (mnemonic : String)
  /-- Raised by step for a word whose op is 101, 110 or 111: R74 demands that a model refuse it. Safe. -/
  | reservedOp (op : Nat)
  /-- Raised by step for a queued value wider than the port's CLK_W + 3 lines (R71), which no port can offer. Safe. -/
  | wordTooWide
deriving DecidableEq, Repr

/-- The state of the block, its parameters, and its ports between two commands. -/
structure State where
  /-- SEQ[0..43] (R21). -/
  seq : Memory
  /-- CURSOR, the count of valid entries and the index of the next write (R22). -/
  cursor : Count
  /-- SUM, the running sum in units (R23). -/
  sum : Count
  /-- CAPTURE_EN (R24). -/
  captureEn : Bool
  /-- MSG_READY (R25). -/
  msgReady : Bool
  /-- LAST_TS, the CLK_W-bit time of the last admitted edge (R26). -/
  lastTs : Nat
  /-- The parameters of rule R8, which no command writes (log 1). -/
  params : Params
  /-- The words on `cmd`, in the order the port accepts them (R60, R70; log 3). -/
  cmds : List Nat
  /-- The response of the command just completed (R70). -/
  resp : Resp
  /-- The outcome the command just completed recorded; NOP and RESET record none (R11, R170, R171; log 6). -/
  outcome : Option CmdOutcome
  /-- The model's own counter, to which the free values of undriven lines are applied (log 5). -/
  freeIdx : Nat
deriving DecidableEq, Repr

/-- The block after power-up with the parameters `p` and the words `cmds` to come (R200, R201). -/
def State.resetWith (p : Params) (cmds : List Nat) : State where
  seq := []
  cursor := 0#6
  sum := 0#6
  captureEn := true
  msgReady := false
  lastTs := p.lastTsInit
  params := p
  cmds := cmds
  resp := .undriven
  outcome := none
  freeIdx := 0

/-- The machine right after reset, at the default parameters of rule R8, with no command offered yet. -/
def State.reset : State := State.resetWith Params.default []

end Sys2Proof.Machine
end

