-- ==== Sys2Proof/Machine/Ops.lean ====
section
/-! DEFINITION. The named operations over SEQ, the registers and the ports: spec/20_memory.md rule R51,
spec/40_edge_capture.md rules R105 to R108, spec/30_encoding.md rules R70, R75, R76, R81. The block has no exception to
take and none to return from (spec/60_exceptions.md rules R180, R188, R189); `State.record` is what the spec's `raise` does. -/

namespace Sys2Proof.Machine

/-! ### The pulse-length sequence -/

/-- The value entry `i` holds, if it holds one. -/
def Memory.entry : Memory → Nat → Option Entry
  | [], _ => none
  | (k, v) :: m, i => if k = i then some v else Memory.entry m i

/-- Entry `i` takes the value `v`; the canonical form is kept. -/
def Memory.insert : Memory → Nat → Entry → Memory
  | [], i, v => [(i, v)]
  | (k, w) :: m, i, v =>
    if i < k then (i, v) :: (k, w) :: m
    else if i = k then (i, v) :: m
    else (k, w) :: Memory.insert m i v

/-- SeqRead(i) of rule R51: a fault where the entry holds no value (R21) or there is no such entry. -/
def seqRead (m : Memory) (i : Nat) : Except Fault Entry :=
  if i < Config.cap then
    match m.entry i with
    | some v => .ok v
    | none => .error (.seqReadNoValue i)
  else .error (.seqIndex i)

/-- SeqWrite(i, v) of rule R51. A 3-bit `v` is in 0..7 by its type. -/
def seqWrite (m : Memory) (i : Nat) (v : Entry) : Except Fault Memory :=
  if i < Config.cap then .ok (m.insert i v) else .error (.seqIndex i)

/-- SeqWrite(i, SeqRead(i) - 1), the decrement of rule R134. -/
def seqDecrement (m : Memory) (i : Nat) : Except Fault Memory := do
  let v ← seqRead m i
  if v = 0#3 then .error (.entryUnderflow i) else seqWrite m i (v - 1#3)

/-! ### Registers -/

/-- LAST_TS <- ts, at the width of the register (R26, R102). -/
def State.setLastTs (s : State) (ts : Nat) : State :=
  { s with lastTs := ts % 2 ^ s.params.clkW }

/-- CURSOR <- 0; SUM <- 0. The entries keep their contents (R105, R52). -/
def State.emptySeq (s : State) : State := { s with cursor := 0#6, sum := 0#6 }

/-- SEQ[CURSOR] <- v; CURSOR <- CURSOR + 1; SUM <- SUM + v (R108), each register at its width. -/
def State.appendEntry (s : State) (v : Entry) : Except Fault State := do
  let m ← seqWrite s.seq s.cursor.toNat v
  return { s with seq := m, cursor := s.cursor + 1#6, sum := s.sum + v.setWidth 6 }

/-- The six items of rule R20 at their reset values (R171, R200): LAST_TS <- LAST_TS_INIT, no entry holds a value. The
words the port has yet to accept stay (R187: RESET is ordered like any other command). -/
def State.clearAll (s : State) : State :=
  { s with
    seq := [], cursor := 0#6, sum := 0#6, captureEn := true, msgReady := false
    lastTs := s.params.lastTsInit }

/-! ### The command port -/

/-- A command begins: it has recorded no outcome, and until it drives one there is no response (R70, R74). The free
values of undriven lines move on (log 5). -/
def State.accept (s : State) : State :=
  { s with resp := .undriven, outcome := none, freeIdx := s.freeIdx + 1 }

/-- `raise <Outcome>(info)`: the outcome is recorded; it is never a trap (R11, R180). -/
def State.record (s : State) (o : CmdOutcome) : State := { s with outcome := some o }

/-- A POLL drives its response (R75, R76). -/
def State.respond (s : State) (r : Resp) : State := { s with resp := r }

/-- What one step does while no word is offered at the port: the block waits and keeps its state (R196, R200); no
response line is driven (R70). DEDUCED (log 4). -/
def State.idle (s : State) : State := s.accept

/-- The next word the port accepts, and the state with that word taken (R12, R60). -/
def State.fetch (s : State) : Option (Nat × State) :=
  match s.cmds with
  | [] => none
  | w :: ws => some (w, { s with cmds := ws })

/-- How step names a word that is no command (R74). -/
def refusalOf : DecodeError → Refusal
  | .reservedOp op => .reservedOp op
  | .wordTooWide => .wordTooWide

/-- The output lines between commands. POLL_CODE's `none` drives present = 0 and code = 0 and leaves the field lines
undefined (R75); POLL_FIELDS' `none` drives present = 0 and every field line to 0 and leaves `resp_code` undefined (R76);
outside a completing POLL no response line is defined (R70). An undefined line is a free value (U8, log 5). `msg_ready`
and `capture_en` carry the two flags (R81). -/
def State.ports (s : State) : Ports :=
  match s.resp with
  | .undriven =>
    { respPresent := Config.undrivenPresent s.freeIdx, respCode := Config.undrivenCode s.freeIdx
      respToggle := Config.undrivenToggle s.freeIdx, respMode := Config.undrivenMode s.freeIdx
      respGroup := Config.undrivenGroup s.freeIdx, respCmd := Config.undrivenCmd s.freeIdx
      msgReady := s.msgReady, captureEn := s.captureEn }
  | .code r =>
    { respPresent := r.isSome, respCode := r.getD 0#32
      respToggle := Config.undrivenToggle s.freeIdx, respMode := Config.undrivenMode s.freeIdx
      respGroup := Config.undrivenGroup s.freeIdx, respCmd := Config.undrivenCmd s.freeIdx
      msgReady := s.msgReady, captureEn := s.captureEn }
  | .fields r =>
    let f := r.getD ⟨false, 0#3, 0#8, 0#8⟩
    { respPresent := r.isSome, respCode := Config.undrivenCode s.freeIdx
      respToggle := f.toggle, respMode := f.mode, respGroup := f.group, respCmd := f.cmd
      msgReady := s.msgReady, captureEn := s.captureEn }

end Sys2Proof.Machine
end

