-- ==== Sys2Proof/Machine/Operands.lean ====
section
/-! DEFINITION. The operand of EDGE, the elapsed time and the quantizer (spec/30_encoding.md rules R72, R78,
spec/40_edge_capture.md rules R100, R102), and the field decomposition of a code (spec/41_decoder.md rule R137). -/

namespace Sys2Proof.Machine

/-- A quantum as its entry of SEQ (R78). -/
def Quantum.bits : Quantum → Entry
  | .u1 => 1#3
  | .u2 => 2#3
  | .u3 => 3#3
  | .u6 => 6#3

/-- The operand `ts` as the CLK_W lines carry it. For every well-formed EDGE it is `ts` itself (R72; log 10). -/
def operandTs (p : Params) (ts : Nat) : Nat := ts % 2 ^ p.clkW

/-- e = (ts - LAST_TS) mod 2^CLK_W, unsigned (R102). -/
def elapsed (clkW ts lastTs : Nat) : Nat :=
  (ts + (2 ^ clkW - lastTs % 2 ^ clkW)) % 2 ^ clkW

/-- CLASSIFY of rule R100; `none` is INVALID. The comparisons are strict. -/
def classify (p : Params) (e : Nat) : Option Quantum :=
  if e < p.th1 then some .u1
  else if e < p.th2 then some .u2
  else if e < p.th3 then some .u3
  else if e < p.th4 then some .u6
  else none

/-- FIELDS(c) of rule R137: toggle c[16], mode c[19:17], group c[15:8], cmd c[7:0]. -/
def fieldsOf (c : Code) : Fields where
  toggle := c.getLsbD 16
  mode := c.extractLsb' 17 3
  group := c.extractLsb' 8 8
  cmd := c.extractLsb' 0 8

/-- The code number of an EDGE outcome (R181); none for a POLL's. -/
def edgeOutcomeCode : CmdOutcome → Option Nat
  | .append _ => some 0
  | .leaderRestart _ => some 1
  | .complete _ => some 2
  | .noiseReset _ => some 3
  | .overflowReset _ => some 4
  | .ignored _ => some 5
  | .noMessage => none
  | .headerFail => none
  | .decoded _ => none

/-- The code number of a POLL outcome (R182); none for an EDGE's. -/
def pollOutcomeCode : CmdOutcome → Option Nat
  | .append _ => none
  | .leaderRestart _ => none
  | .complete _ => none
  | .noiseReset _ => none
  | .overflowReset _ => none
  | .ignored _ => none
  | .noMessage => some 0
  | .headerFail => some 1
  | .decoded _ => some 2

end Sys2Proof.Machine
end

