-- ==== Sys2Proof/Machine/Flags.lean ====
section
/-! DEFINITION. The two flags MSG_READY and CAPTURE_EN: the completion test and the three operations that write them
(spec/40_edge_capture.md rule R109, spec/41_decoder.md rules R132, R136), and the receiver state they encode
(spec/10_state.md rule R29). -/

namespace Sys2Proof.Machine

/-- SUM > FRAME_UNITS, compared after every append (R109). -/
def State.overFrame (s : State) : Bool := decide (Config.frameUnits < s.sum.toNat)

/-- MSG_READY <- 1; CAPTURE_EN <- 0, in one step (R109). -/
def State.completeMsg (s : State) : State := { s with msgReady := true, captureEn := false }

/-- The consume step of DECODE: CURSOR <- 0; SUM <- 0; MSG_READY <- 0. CAPTURE_EN stays (R132). -/
def State.consume (s : State) : State := { s with cursor := 0#6, sum := 0#6, msgReady := false }

/-- CAPTURE_EN <- 1, at the end of every decode attempt (R133, R136). -/
def State.rearm (s : State) : State := { s with captureEn := true }

/-- The receiver state the flags encode (R29); the other two combinations are no state of the machine (I1 of R32). -/
def State.phase (s : State) : Option Phase :=
  if s.msgReady = false ∧ s.captureEn = true then some .capturing
  else if s.msgReady = true ∧ s.captureEn = false then some .complete
  else none

end Sys2Proof.Machine
end

