-- ==== Sys2Proof/Machine/Capture.lean ====
section
/-! DEFINITION. EDGE, the capture framer (spec/40_edge_capture.md rules R103 to R109). -/

namespace Sys2Proof.Machine

/-- A unit 6 empties the sequence before its append (R106). -/
def State.leaderReset (s : State) (u : Quantum) : State := if u = .u6 then s.emptySeq else s

/-- The index of the entry an appending EDGE of unit `u` writes: CURSOR after the leader's reset (R106, R108). -/
def storeIndex (s : State) (u : Quantum) : Nat := (s.leaderReset u).cursor.toNat

/-- The completion test after the append of unit `u` (R109), with the outcome R181 gives it. -/
def State.settleAppend (s : State) (u : Quantum) (e : Nat) : State :=
  if s.overFrame then s.completeMsg.record (.complete s.cursor)
  else if u = .u6 then s.record (.leaderRestart e) else s.record (.append u)

/-- The append of unit `u`, and then the completion test (R108, R109). -/
def appendUnit (s : State) (u : Quantum) (e : Nat) : Except Fault State := do
  let t ← s.appendEntry u.bits
  return t.settleAppend u e

/-- An EDGE that CAPTURE_EN admits, from the elapsed time on (R102, R105 to R109). -/
def admitEdge (s : State) (ts : Nat) : Except Fault State :=
  let e := elapsed s.params.clkW ts s.lastTs
  let s := s.setLastTs ts
  match classify s.params e with
  | none => .ok (s.emptySeq.record (.noiseReset e))
  | some u =>
    let s := s.leaderReset u
    if s.cursor.toNat = Config.cap then .ok (s.emptySeq.record (.overflowReset e))
    else appendUnit s u e

/-- EDGE ts (R103): ignored while CAPTURE_EN = 0 (R104). -/
def execEdge (ts : Nat) (s : State) : Host.Outcome State Fault Refusal :=
  let s := s.accept
  let ts := operandTs s.params ts
  if s.captureEn then
    match admitEdge s ts with
    | .ok t => .next t
    | .error f => .fault f
  else .next (s.record (.ignored ts))

end Sys2Proof.Machine
end

