-- ==== Sys2Proof/Machine/Control.lean ====
section
/-! DEFINITION. The control commands NOP and RESET (spec/42_control.md rules R170, R171). -/

namespace Sys2Proof.Machine

/-- NOP: no effect, no response, no outcome (R170). -/
def execNop (s : State) : Host.Outcome State Fault Refusal := .next s.accept

/-- RESET: every item of rule R20 to its reset value; no response, no outcome (R171). -/
def execReset (s : State) : Host.Outcome State Fault Refusal := .next s.accept.clearAll

end Sys2Proof.Machine
end

