-- ==== Sys2Proof/Machine/Decoder.lean ====
section
/-! DEFINITION. DECODE and the two polls (spec/41_decoder.md rules R130 to R137). Each loop of the pseudocode is a
recursion on a fuel of CAP, the bound rule R173 gives it. -/

namespace Sys2Proof.Machine

/-- HEADER_OK(): the first three entries are exactly (6, 2, 1), in that order (R133). -/
def headerOk (m : Memory) : Except Fault Bool := do
  let a ← seqRead m 0
  let b ← seqRead m 1
  let c ← seqRead m 2
  return decide ((a, b, c) = Config.hdr)

/-- The walk of COMPENSATE from entry `idx` at offset `off`: the first entry whose cumulative end offset equals
TOGGLE_OFF, or none when the offsets pass it (R134). -/
def findToggle (m : Memory) : (fuel idx off : Nat) → Except Fault (Option Nat)
  | 0, _, _ => .ok none
  | fuel + 1, idx, off =>
    if off < Config.toggleOff ∧ idx < Config.cap then do
      let v ← seqRead m idx
      if off + v.toNat = Config.toggleOff then return some idx
      else findToggle m fuel (idx + 1) (off + v.toNat)
    else .ok none

/-- The entry j that ends at offset 18, if there is one (R134). -/
def toggleEntry (m : Memory) : Except Fault (Option Nat) := findToggle m Config.cap 0 0

/-- COMPENSATE(): SEQ[j] and SEQ[j+1] are decremented by 1 each; nothing changes where no entry ends at 18 (R134). -/
def compensate (m : Memory) : Except Fault Memory := do
  match ← toggleEntry m with
  | none => return m
  | some j => seqDecrement (← seqDecrement m j) (j + 1)

/-- One turn of DEMODULATE's loop on an entry `v`: OFF, a sample where OFF is odd, LVL, IDX (R135). -/
def Walk.turn (w : Walk) (v : Entry) : Walk :=
  let off := w.off + v.toNat
  { off := off
    idx := w.idx + 1
    lvl := !w.lvl
    code := if off % 2 = 1 then (w.code <<< 1) ||| (BitVec.ofBool w.lvl).setWidth 32 else w.code
    samples := if off % 2 = 1 then w.samples + 1 else w.samples }

/-- The loop of DEMODULATE (R135): while OFF < DEMOD_STOP and IDX < CAP. -/
def demodLoop (m : Memory) : (fuel : Nat) → Walk → Except Fault Walk
  | 0, w => .ok w
  | fuel + 1, w =>
    if w.off < Config.demodStop ∧ w.idx < Config.cap then do
      let v ← seqRead m w.idx
      demodLoop m fuel (w.turn v)
    else .ok w

/-- DEMODULATE() from OFF = DEMOD_START, IDX = 2, LVL = 1, CODE = 0 (R135). -/
def demodulate (m : Memory) : Except Fault Walk :=
  demodLoop m Config.cap ⟨Config.demodStart, 2, true, 0#32, 0⟩

/-- DECODE(): consume, check the header, compensate, demodulate, re-arm (R132 to R136). The code is not masked. -/
def decodeMsg (s : State) : Except Fault (State × Option Code) := do
  let s := s.consume
  if ← headerOk s.seq then
    let m ← compensate s.seq
    let w ← demodulate m
    return (({ s with seq := m }).rearm.record (.decoded w.code), some w.code)
  else return (s.rearm.record .headerFail, none)

/-- What the two polls share: nothing changes without a message (R130, D26), else DECODE. -/
def pollMsg (s : State) : Except Fault (State × Option Code) :=
  if s.msgReady then decodeMsg s else .ok (s.record .noMessage, none)

/-- POLL_CODE (R130): the response is the optional code (R75). -/
def execPollCode (s : State) : Host.Outcome State Fault Refusal :=
  match pollMsg s.accept with
  | .ok (t, r) => .next (t.respond (.code r))
  | .error f => .fault f

/-- POLL_FIELDS (R131): the response is the optional code's fields (R76, R137). -/
def execPollFields (s : State) : Host.Outcome State Fault Refusal :=
  match pollMsg s.accept with
  | .ok (t, r) => .next (t.respond (.fields (r.map fieldsOf)))
  | .error f => .fault f

end Sys2Proof.Machine
end

