-- ==== Sys2Proof/Machine/Dispatch.lean ====
section
/-! DEFINITION. One arm per command (spec/30_encoding.md rule R73). -/

namespace Sys2Proof.Machine

def exec (i : Instr) (s : State) : Host.Outcome State Fault Refusal :=
  match i with
  | .nop => Sys2Proof.Machine.execNop s
  | .edge ts => Sys2Proof.Machine.execEdge ts s
  | .pollCode => Sys2Proof.Machine.execPollCode s
  | .pollFields => Sys2Proof.Machine.execPollFields s
  | .reset => Sys2Proof.Machine.execReset s

end Sys2Proof.Machine
end

