-- ==== Sys2Proof/Machine/Step.lean ====
section
/-! DEFINITION. One step: the next word the port accepts is decoded and its command runs to completion
(spec/00_scope.md rule R12, spec/20_memory.md rule R60). -/

namespace Sys2Proof.Machine

/-- One step. A reserved op is refused (R74); with no word at the port the block waits (log 4). -/
def step (s : State) : Host.Outcome State Fault Refusal :=
  match s.fetch with
  | none => .next s.idle
  | some (w, t) =>
    match decode t.params.clkW w with
    | .ok i => exec i t
    | .error e => .refused (refusalOf e)

/-- The port is offered the table word `w` next, ahead of the words already waiting (log 3, log 10). -/
def State.withFetchWord (s : State) (_nbits w : Nat) : State :=
  { s with cmds := relayWord s.params.clkW w :: s.cmds }

end Sys2Proof.Machine
end

