-- ==== Sys2Proof/Machine/Frame.lean ====
section
/-! DEFINITION. The well-formed RC6 frame of spec/41_decoder.md rule R139: the reference a claim uses to build input, not
a rule of the block. Its start bit, polarity, idle level and field order are the spec's items G1 to G4, marked there as
general knowledge. PRESUMED (log 15). -/

namespace Sys2Proof.Machine

/-- A stretch of one line level: `true` is the mark M, `false` the space S; its length in units. -/
abbrev Level := Bool × Nat

/-- A bit as two halves of `w` units each: 1 is M then S, 0 is S then M (R139, G1). -/
def manchester (w : Nat) (b : Bool) : List Level := [(b, w), (!b, w)]

/-- The bits of a field, the most significant first (R139, G4). -/
def msbFirst {n : Nat} (v : BitVec n) : List Bool := (List.range n).reverse.map v.getLsbD

/-- The leader and the start bit of value 1 (R139, G2). -/
def frameHead : List Level := [(true, 6), (false, 2)] ++ manchester 1 true

/-- The level sequence of the frame for `f` (R139). -/
def frameLevels (f : Fields) : List Level :=
  frameHead ++ (msbFirst f.mode).flatMap (manchester 1) ++ manchester 2 f.toggle ++
    (msbFirst f.group).flatMap (manchester 1) ++ (msbFirst f.cmd).flatMap (manchester 1)

/-- The maximal runs of equal level. -/
def mergeLevels : List Level → List Level
  | [] => []
  | (l, n) :: rest =>
    match mergeLevels rest with
    | [] => [(l, n)]
    | (l', n') :: rs => if l = l' then (l, n + n') :: rs else (l, n) :: (l', n') :: rs

/-- The run lengths, without a final space run, which merges with idle (R139, G3). -/
def runLengths : List Level → List Nat
  | [] => []
  | [(l, n)] => if l then [n] else []
  | (_, n) :: rs => n :: runLengths rs

/-- The intervals, in units, between the EDGEs of the frame for `f`: the start of the leader and the end of every run. -/
def frameUnits (f : Fields) : List Nat := runLengths (mergeLevels (frameLevels f))

/-- The units up to and including the one that takes the sum above FRAME_UNITS: what capture keeps of `us` (R109). -/
def captured (sum : Nat) : List Nat → List Nat
  | [] => []
  | u :: us => if Config.frameUnits < sum + u then [u] else u :: captured (sum + u) us

/-- The code of a well-formed frame (R140): the start bit at bit 20, then mode, toggle, group and cmd. -/
def frameCode (f : Fields) : Code :=
  0x00100000#32 ||| f.mode.setWidth 32 <<< 17 ||| (BitVec.ofBool f.toggle).setWidth 32 <<< 16 |||
    f.group.setWidth 32 <<< 8 ||| f.cmd.setWidth 32

/-- The EDGE times `ts` that follow the time `last` have intervals inside the classes of the units `us` (R101, R112). -/
def fitsUnits (p : Params) (last : Nat) : List Nat → List Nat → Bool
  | [], [] => true
  | t :: ts, u :: us =>
    decide (t < 2 ^ p.clkW) && (classify p (elapsed p.clkW t last)).map (fun q => q.bits.toNat) == some u &&
      fitsUnits p t ts us
  | [], _ :: _ => false
  | _ :: _, [] => false

end Sys2Proof.Machine
end

