-- ==== Sys2Proof/Machine/Listing.lean ====
section
/-! DEFINITION. The trace syntax of spec/30_encoding.md rule R80 and its one pseudo-instruction, EDGE +delta, of rule R83:
the text of a listing, its lines, and the command words it assembles to. Text is a list of characters. -/

namespace Sys2Proof.Machine

/-- One command line of a listing (R80). -/
inductive ListingLine where
  | nop
  /-- EDGE ts. -/
  | edgeAt (ts : Nat)
  /-- EDGE +delta (R83). -/
  | edgePlus (delta : Nat)
  | pollCode
  | pollFields
  | reset
deriving DecidableEq, Repr

/-- Why a listing is refused. -/
inductive ListingError where
  /-- The line is none of R80's commands. -/
  | badCommand
  /-- The operand is no decimal and no 0x number (R80). -/
  | badNumber
  /-- The operand is not below 2^CLK_W (R80). -/
  | operandTooWide
  /-- The first EDGE of the listing is relative (R83, U16). -/
  | relativeFirstEdge
deriving DecidableEq, Repr

/-- The value of a digit, decimal or hexadecimal of either case (R80; log 13). -/
def digitValue (c : Char) : Option Nat :=
  let n := c.toNat
  if 48 ≤ n ∧ n ≤ 57 then some (n - 48)
  else if 97 ≤ n ∧ n ≤ 102 then some (n - 87)
  else if 65 ≤ n ∧ n ≤ 70 then some (n - 55)
  else none

/-- The number a run of digits of the given base stands for, after the value `acc` of the digits before it. -/
def digitsValue (base acc : Nat) : List Char → Option Nat
  | [] => some acc
  | c :: cs =>
    match digitValue c with
    | some d => if d < base then digitsValue base (acc * base + d) cs else none
    | none => none

/-- A number: decimal, or hexadecimal after 0x (R10, R80). -/
def parseNumber : List Char → Option Nat
  | [] => none
  | '0' :: 'x' :: c :: cs => digitsValue 16 0 (c :: cs)
  | c :: cs => digitsValue 10 0 (c :: cs)

/-- The line without its comment, which runs from a semicolon to the line's end (R80). -/
def dropComment : List Char → List Char
  | [] => []
  | ';' :: _ => []
  | c :: cs => c :: dropComment cs

/-- A blank between two words. DESIGN CHOICE: space and tab (log 13). -/
def isBlank (c : Char) : Bool := c = ' ' || c = '\t'

/-- The words of a line: maximal runs with no blank and no plus sign; each plus sign is a word of its own. `w` holds the
characters of the word being read. -/
def lineWords (w : List Char) : List Char → List (List Char)
  | [] => if w = [] then [] else [w]
  | c :: cs =>
    if isBlank c then (if w = [] then [] else [w]) ++ lineWords [] cs
    else if c = '+' then (if w = [] then [] else [w]) ++ ['+'] :: lineWords [] cs
    else lineWords (w ++ [c]) cs

/-- A line's command, or none for a line that is empty or holds a comment only (R80). Mnemonics are upper case. -/
def parseLine (text : List Char) : Except ListingError (Option ListingLine) :=
  match lineWords [] (dropComment text) with
  | [] => .ok none
  | [['N', 'O', 'P']] => .ok (some .nop)
  | [['P', 'O', 'L', 'L', '_', 'C', 'O', 'D', 'E']] => .ok (some .pollCode)
  | [['P', 'O', 'L', 'L', '_', 'F', 'I', 'E', 'L', 'D', 'S']] => .ok (some .pollFields)
  | [['R', 'E', 'S', 'E', 'T']] => .ok (some .reset)
  | [['E', 'D', 'G', 'E'], n] =>
    match parseNumber n with
    | some ts => .ok (some (.edgeAt ts))
    | none => .error .badNumber
  | [['E', 'D', 'G', 'E'], ['+'], n] =>
    match parseNumber n with
    | some d => .ok (some (.edgePlus d))
    | none => .error .badNumber
  | _ => .error .badCommand

/-- The commands of a listing's lines. `prev` is the `ts` of the nearest preceding EDGE line, computed from the listing
and not from the block's state (R83). -/
def expandLines (clkW : Nat) (prev : Option Nat) : List ListingLine → Except ListingError (List Instr)
  | [] => .ok []
  | .nop :: ls => do return .nop :: (← expandLines clkW prev ls)
  | .edgeAt ts :: ls => do
    if ts < 2 ^ clkW then return .edge ts :: (← expandLines clkW (some ts) ls)
    else throw .operandTooWide
  | .edgePlus d :: ls => do
    match prev with
    | none => throw .relativeFirstEdge
    | some t =>
      if d < 2 ^ clkW then
        let ts := (t + d) % 2 ^ clkW
        return .edge ts :: (← expandLines clkW (some ts) ls)
      else throw .operandTooWide
  | .pollCode :: ls => do return .pollCode :: (← expandLines clkW prev ls)
  | .pollFields :: ls => do return .pollFields :: (← expandLines clkW prev ls)
  | .reset :: ls => do return .reset :: (← expandLines clkW prev ls)

/-- The commands a listing's text stands for (R80, R83). -/
def parseListing (clkW : Nat) (text : List (List Char)) : Except ListingError (List Instr) := do
  let lines ← text.mapM parseLine
  expandLines clkW none (lines.filterMap id)

/-- The command words a listing assembles to: one word a command, with `ts` = 0 where it is ignored (R80). -/
def assemble (clkW : Nat) (text : List (List Char)) : Except ListingError (List Nat) := do
  return (← parseListing clkW text).map (encode clkW)

/-- The lowest `n` hexadecimal digits of a word, the highest first; a listing shows 9 of them at CLK_W = 32 (R71, R80). -/
def wordDigits : (n : Nat) → Nat → List Nat
  | 0, _ => []
  | n + 1, w => wordDigits n (w / 16) ++ [w % 16]

end Sys2Proof.Machine
end

