-- ==== Sys2Proof/Safety.lean ====
section
/-! DEFINITION. The terms claims use: the invariant of spec/10_state.md rule R32, what it means that the architectural
state is unchanged (rule R20), runs of commands (spec/20_memory.md rule R60), and the declarative reading of the two
loops of DECODE (spec/41_decoder.md rules R134, R135). -/

namespace Sys2Proof.Machine

/-- The units an EDGE writes (R21, R78). -/
def isUnit (v : Entry) : Bool := v = 1#3 || v = 2#3 || v = 3#3 || v = 6#3

/-- The value of entry `k` in units, 0 where it holds none. -/
def entryUnits (m : Memory) (k : Nat) : Nat := ((m.entry k).getD 0#3).toNat

/-- The sum of the first `n` entries, in units: the cumulative offset at the end of entry `n - 1` (R13, R23). -/
def prefixSum (m : Memory) : Nat → Nat
  | 0 => 0
  | n + 1 => prefixSum m n + entryUnits m n

/-- The invariants I1 to I5 of rule R32, with the ranges of the parameters (R8), the canonical form of SEQ and the width
of LAST_TS. I6 speaks of reads and is a statement of its own. -/
structure State.Inv (s : State) : Prop where
  /-- The parameters are in the ranges of R8. -/
  params_wf : s.params.wf = true
  /-- SEQ is in its canonical form. -/
  seq_wf : s.seq.wf = true
  /-- LAST_TS fits its CLK_W bits (R26). -/
  lastTs_lt : s.lastTs < 2 ^ s.params.clkW
  /-- I1. -/
  flags : s.captureEn = !s.msgReady
  /-- I2. -/
  cursor_le : s.cursor.toNat ≤ Config.cap
  /-- I3 and I4: the entries below CURSOR hold units, and a 6 only at index 0. -/
  entries : ∀ k < s.cursor.toNat, ∃ v, s.seq.entry k = some v ∧ isUnit v = true ∧ (v = 6#3 → k = 0)
  /-- I3. -/
  sum_eq : s.sum.toNat = prefixSum s.seq s.cursor.toNat
  /-- I5 while capturing. -/
  sum_capturing : s.msgReady = false → s.sum.toNat ≤ Config.frameUnits
  /-- I5 while a message is complete. -/
  sum_complete : s.msgReady = true → 51 ≤ s.sum.toNat ∧ s.sum.toNat ≤ 53 ∧ 16 ≤ s.cursor.toNat

/-- The six items of rule R20 are the same in both states. -/
def SameItems (s t : State) : Prop :=
  t.seq = s.seq ∧ t.cursor = s.cursor ∧ t.sum = s.sum ∧ t.captureEn = s.captureEn ∧
    t.msgReady = s.msgReady ∧ t.lastTs = s.lastTs

/-- What no command touches: the parameters and the words not yet accepted. -/
def SameOutside (s t : State) : Prop := t.params = s.params ∧ t.cmds = s.cmds

/-- A command sequence, executed one by one in its order (R60). -/
def execAll : List Instr → State → Host.Outcome State Fault Refusal
  | [], s => .next s
  | i :: is, s =>
    match exec i s with
    | .next t => execAll is t
    | .fault f => .fault f
    | .refused r => .refused r

/-- A word the port can carry whose op is not reserved (R71, R74). -/
def commandWord (clkW w : Nat) : Bool := w < 5 * 2 ^ clkW

/-- The level LVL with which DEMODULATE meets entry `k`: it starts at 1 with entry 2 and toggles at every entry (R135). -/
def levelAt (k : Nat) : Bool := k % 2 = 0

/-- The cumulative offset after entry `k`, counted from DEMOD_START at entry 2 (R135). -/
def demodOffset (m : Memory) (k : Nat) : Nat :=
  Config.demodStart + (prefixSum m (k + 1) - prefixSum m 2)

/-- The entries DEMODULATE samples among entries 2 to `last`: those after which the offset is odd (R135). -/
def samplePoints (m : Memory) (last : Nat) : List Nat :=
  (List.range' 2 (last - 1)).filter fun k => demodOffset m k % 2 = 1

/-- The code a list of samples packs, the first sample in the highest bit (R135). -/
def packSamples (bits : List Bool) : Code :=
  BitVec.ofNat 32 (bits.foldl (fun c b => 2 * c + b.toNat) 0)

/-- The message in SEQ passes the header check (R133). -/
def HeaderHolds (m : Memory) : Prop :=
  m.entry 0 = some 6#3 ∧ m.entry 1 = some 2#3 ∧ m.entry 2 = some 1#3

/-- The first entries of SEQ hold the units `us`. -/
def HoldsUnits (m : Memory) (us : List Nat) : Prop :=
  ∀ k < us.length, (m.entry k).map BitVec.toNat = us[k]?

end Sys2Proof.Machine
end

