-- ==== Sys2Proof/Certificates/Slice0/Obligations.lean ====
section
/-! DEFINITION. The statements for the provers, one a rule or a group of rules of spec/. Each docstring names the rule.
A statement about every state is a statement about every value of the parameters of rule R8 (log 1). The clauses on
`SameOutside`, `resp = .undriven` and `outcome` speak of the model's own fields (logs 1 and 3, 5, 6). -/

open Sys2Proof Sys2Proof.Machine

/-! ### Encoding (spec/30_encoding.md) -/

/-- Decoding the word of a well-formed command gives the command back, at every CLK_W (R71, R73). -/
def Obligations.DecodeOfEncodeIsSame : Prop :=
  ∀ (clkW : Nat) (i : Instr), WellFormed clkW i = true → decode clkW (encode clkW i) = .ok i

/-- A word the decoder accepts selects a well-formed command whose own word has the same op, decodes to the same command,
and, for EDGE, is the word itself: no bit of it is dropped (R71, R73). -/
def Obligations.AcceptedWordReencodes : Prop :=
  ∀ (clkW w : Nat) (i : Instr), decode clkW w = .ok i →
    WellFormed clkW i = true ∧ decode clkW (encode clkW i) = .ok i ∧
      opField clkW (encode clkW i) = opField clkW w ∧ ((∃ ts, i = .edge ts) → encode clkW i = w)

/-- Under every op but EDGE's, every value of `ts` selects the same command (R71, D4). -/
def Obligations.IgnoredTimestampSelectsSame : Prop :=
  ∀ (clkW op ts ts' : Nat), op < 8 → op ≠ 1 → ts < 2 ^ clkW → ts' < 2 ^ clkW →
    decode clkW (op * 2 ^ clkW + ts) = decode clkW (op * 2 ^ clkW + ts')

/-- At CLK_W = 32 the rows of the opcode table say what the decoder does: a 35-bit word matches a row's mask and pattern
exactly where it decodes to a command of that row's mnemonic (R73). -/
def Obligations.OpcodeTableAgreesWithDecoder : Prop :=
  ∀ row ∈ opcodeTable, ∀ w < 2 ^ 35,
    (w &&& row.mask = row.pattern ↔ ∃ i, decode 32 w = .ok i ∧ mnemonic i = row.mnemonic)

/-- Words written out from the encoding in spec/95_test_vectors.md (V-E1, V-E12, V-N2, P3) decode to their commands. -/
def Obligations.WrittenWordsDecode : Prop :=
  decode 32 0x000000000 = .ok .nop ∧ decode 32 0x0DEADBEEF = .ok .nop ∧
    decode 32 0x100019484 = .ok (.edge 103556) ∧ decode 32 0x1000000BC = .ok (.edge 188) ∧
    decode 32 0x1FFFFB000 = .ok (.edge 4294946816) ∧ decode 32 0x200000000 = .ok .pollCode ∧
    decode 32 0x300000000 = .ok .pollFields ∧ decode 32 0x400000000 = .ok .reset

/-- A step refuses a word whose op is 101, 110 or 111, whatever its `ts`. R74 and R172 say that a model must refuse a trace
that contains one; that the step taking the word is where the refusal falls is the model's reading (log 8, DEDUCED). -/
def Obligations.ReservedOpIsRefused : Prop :=
  ∀ (s : State) (op ts : Nat) (rest : List Nat), (op = 5 ∨ op = 6 ∨ op = 7) → ts < 2 ^ s.params.clkW →
    s.cmds = (op * 2 ^ s.params.clkW + ts) :: rest → step s = .refused (.reservedOp op)

/-! ### Steps and runs (spec/00_scope.md R12, spec/20_memory.md R60) -/

/-- A step takes the next word off the port and runs exactly the command it decodes to (R12, R60). -/
def Obligations.StepRunsDecodedCommand : Prop :=
  ∀ (s : State) (w : Nat) (rest : List Nat) (i : Instr), s.cmds = w :: rest → decode s.params.clkW w = .ok i →
    WellFormed s.params.clkW i = true → step s = exec i { s with cmds := rest }

/-- The model's choice (log 4): with no word at the port a step keeps the six items, the parameters and the port, drives
no response and records no outcome. -/
def Obligations.WaitingStepKeepsItems : Prop :=
  ∀ s : State, s.cmds = [] →
    ∃ t, step s = .next t ∧ SameItems s t ∧ SameOutside s t ∧ t.resp = .undriven ∧ t.outcome = none

/-- At CLK_W = 32 a table word placed with withFetchWord is what the next step runs (log 3, log 10). -/
def Obligations.PlacedTableWordRunsNext : Prop :=
  ∀ (s : State) (n w : Nat) (i : Instr), s.params.clkW = 32 → decodeTableWord n w = some i →
    step (s.withFetchWord n w) = exec i s

/-- Running the port's words is running their commands one by one in the order the port accepts them (R60). -/
def Obligations.RunFollowsAcceptedOrder : Prop :=
  ∀ (is : List Instr) (s : State) (rest : List Nat), (∀ i ∈ is, WellFormed s.params.clkW i = true) →
    s.cmds = is.map (encode s.params.clkW) ++ rest →
    Host.Core.run Sys2Proof.core is.length s = execAll is { s with cmds := rest }

/-! ### Reset and NOP (spec/42_control.md, spec/70_reset_and_hazards.md) -/

/-- RESET completes from every state and leaves the reset state: rule R200 with the values of R171; RESET twice is RESET
once, and a POLL_CODE after it finds no message (R171). Two clauses are the model's: that no entry of SEQ holds a value
follows R171 and R200 against the last sentence of R52 (log 12, DEDUCED), and that the parameters and the waiting words
stay is the model's command port (log 3, DESIGN CHOICE, argued from R187's order of RESET; log 1). -/
def Obligations.ResetLeavesResetState : Prop :=
  ∀ s : State, ∃ t, exec .reset s = .next t ∧ t.cursor = 0#6 ∧ t.sum = 0#6 ∧ t.msgReady = false ∧ t.captureEn = true ∧
    t.lastTs = s.params.lastTsInit ∧ (∀ k, t.seq.entry k = none) ∧ t.phase = some .capturing ∧
    t.resp = .undriven ∧ t.outcome = none ∧ SameOutside s t ∧
    (∃ u, exec .reset t = .next u ∧ SameItems t u) ∧ (∃ u, exec .pollCode t = .next u ∧ u.resp = .code none)

/-- At power-up the block is in the reset state, and a RESET as the first command changes nothing (R201). -/
def Obligations.PowerUpIsResetState : Prop :=
  ∀ (p : Params) (c : List Nat),
    (∃ t, exec .reset (State.resetWith p c) = .next t ∧ SameItems (State.resetWith p c) t) ∧
      ∀ s : State, s.params = p → ∃ t, exec .reset s = .next t ∧ SameItems (State.resetWith p c) t

/-- NOP completes from every state and changes nothing (R170). -/
def Obligations.NopChangesNothing : Prop :=
  ∀ s : State, ∃ t, exec .nop s = .next t ∧ SameItems s t ∧ SameOutside s t ∧ t.resp = .undriven ∧ t.outcome = none

/-! ### The invariant (spec/10_state.md R32) -/

/-- The reset state meets the invariant, at all parameters in range, and so does State.reset itself, whose
LAST_TS_INIT is the model's choice (R32, log 2). -/
def Obligations.ResetMeetsInvariant : Prop :=
  (∀ (p : Params) (c : List Nat), p.wf = true → (State.resetWith p c).Inv) ∧ State.reset.Inv

/-- Every step keeps the invariant I1 to I5, from every state that meets it (R32). -/
def Obligations.StepKeepsInvariant : Prop :=
  ∀ s t : State, s.Inv → step s = .next t → t.Inv

/-- From every state that meets the invariant every command completes: no fault, no refusal (R180, R65). -/
def Obligations.EveryCommandCompletes : Prop :=
  ∀ (s : State) (i : Instr), s.Inv → ∃ t, exec i s = .next t

/-- A trace without reserved ops never stops, however long it runs, and every state of it meets the invariant
(R180, R212, R32). Once the waiting words are used up the steps are waiting steps, which answer a next state by the
model's reading (log 4, DEDUCED); the words themselves are the model's port (log 3). -/
def Obligations.UnreservedTraceNeverStops : Prop :=
  ∀ (s : State) (k : Nat), s.Inv → (∀ w ∈ s.cmds, commandWord s.params.clkW w = true) →
    ∃ t, Host.Core.run Sys2Proof.core k s = .next t ∧ t.Inv

/-- No command depends on an entry at CURSOR or above, whether it is stale or holds no value (I6 of R32, R65): replacing
all of those entries changes nothing any port or later command can see. -/
def Obligations.StaleEntriesAreNeverRead : Prop :=
  ∀ (s t : State) (m : Memory) (i : Instr), s.Inv → m.wf = true →
    (∀ k < s.cursor.toNat, m.entry k = s.seq.entry k) → exec i s = .next t →
    ∃ u, exec i { s with seq := m } = .next u ∧ u.cursor = t.cursor ∧ u.sum = t.sum ∧ u.captureEn = t.captureEn ∧
      u.msgReady = t.msgReady ∧ u.lastTs = t.lastTs ∧ u.resp = t.resp ∧ u.outcome = t.outcome ∧
      ∀ k < t.cursor.toNat, u.seq.entry k = t.seq.entry k

/-- Nothing but the six items persists (R20): two states with the same items and parameters answer every command alike,
whatever responses, outcomes, waiting words and free counters they hold. -/
def Obligations.NothingElsePersists : Prop :=
  ∀ (s t : State) (i : Instr), SameItems s t → t.params = s.params →
    (∀ s', exec i s = .next s' →
      ∃ t', exec i t = .next t' ∧ SameItems s' t' ∧ t'.resp = s'.resp ∧ t'.outcome = s'.outcome) ∧
      ∀ f, exec i s = .fault f → exec i t = .fault f

/-- Which commands write the flags and LAST_TS (R20, R24 to R26): MSG_READY rises only by an EDGE with outcome COMPLETE
and falls only by a POLL or RESET; CAPTURE_EN falls only by an EDGE with outcome COMPLETE and rises only by a POLL or RESET,
so it moves with MSG_READY or not at all; LAST_TS moves only by an admitted EDGE or RESET. -/
def Obligations.FlagsHaveTheirWriters : Prop :=
  ∀ (s t : State) (i : Instr), s.Inv → exec i s = .next t →
    (s.msgReady = false → t.msgReady = true →
      t.captureEn = false ∧ (∃ ts, i = .edge ts) ∧ t.outcome = some (.complete t.cursor)) ∧
    (s.msgReady = true → t.msgReady = false →
      t.captureEn = true ∧ (i = .pollCode ∨ i = .pollFields ∨ i = .reset)) ∧
    (s.captureEn = true → t.captureEn = false →
      t.msgReady = true ∧ (∃ ts, i = .edge ts) ∧ t.outcome = some (.complete t.cursor)) ∧
    (s.captureEn = false → t.captureEn = true →
      t.msgReady = false ∧ (i = .pollCode ∨ i = .pollFields ∨ i = .reset)) ∧
    (t.lastTs ≠ s.lastTs → ((∃ ts, i = .edge ts) ∧ s.captureEn = true) ∨ i = .reset)

/-- Between commands the receiver is CAPTURING or COMPLETE, as the flags say (R29). -/
def Obligations.ReceiverPhaseIsReadFromFlags : Prop :=
  ∀ s : State, s.Inv →
    (s.phase = some .capturing ↔ s.msgReady = false) ∧ (s.phase = some .complete ↔ s.msgReady = true)

/-! ### EDGE and the quantizer (spec/40_edge_capture.md) -/

/-- CLASSIFY, class by class, at every thresholds in range, with the default thresholds (R100). -/
def Obligations.ClassifyFollowsThresholds : Prop :=
  (∀ (p : Params) (e : Nat), p.wf = true →
    (classify p e = some .u1 ↔ e < p.th1) ∧ (classify p e = some .u2 ↔ p.th1 ≤ e ∧ e < p.th2) ∧
    (classify p e = some .u3 ↔ p.th2 ≤ e ∧ e < p.th3) ∧ (classify p e = some .u6 ↔ p.th3 ≤ e ∧ e < p.th4) ∧
    (classify p e = none ↔ p.th4 ≤ e) ∧ classify p 0 = some .u1) ∧
  Params.default.th1 = 671 ∧ Params.default.th2 = 1119 ∧ Params.default.th3 = 2015 ∧ Params.default.th4 = 2911

/-- The classes at the default thresholds, as rule R101's table bounds them. -/
def Obligations.DefaultClassTable : Prop :=
  ∀ e : Nat,
    (e ≤ 670 → classify Params.default e = some .u1) ∧
    (671 ≤ e → e ≤ 1118 → classify Params.default e = some .u2) ∧
    (1119 ≤ e → e ≤ 2014 → classify Params.default e = some .u3) ∧
    (2015 ≤ e → e ≤ 2910 → classify Params.default e = some .u6) ∧
    (2911 ≤ e → classify Params.default e = none)

/-- The elapsed time is the difference modulo 2^CLK_W (R102): the plain difference where the clock did not wrap, and
ts + 2^CLK_W - LAST_TS where it did (R111). -/
def Obligations.ElapsedToleratesWraparound : Prop :=
  ∀ clkW ts last : Nat, ts < 2 ^ clkW → last < 2 ^ clkW →
    (elapsed clkW ts last : Int) = ((ts : Int) - last) % (2 ^ clkW : Nat) ∧
    (last ≤ ts → elapsed clkW ts last = ts - last) ∧ (ts < last → elapsed clkW ts last = ts + 2 ^ clkW - last)

/-- An interval of k · 2^CLK_W + d microseconds classifies as d does (R207). -/
def Obligations.LongIntervalsAlias : Prop :=
  ∀ (p : Params) (t k d : Nat), d < 2 ^ p.clkW →
    elapsed p.clkW ((t + k * 2 ^ p.clkW + d) % 2 ^ p.clkW) (t % 2 ^ p.clkW) = d ∧
      classify p (elapsed p.clkW ((t + k * 2 ^ p.clkW + d) % 2 ^ p.clkW) (t % 2 ^ p.clkW)) = classify p d

/-- While CAPTURE_EN = 0 an EDGE completes and changes no state, not even LAST_TS (R104). -/
def Obligations.DisabledEdgeChangesNothing : Prop :=
  ∀ (s : State) (ts : Nat), ts < 2 ^ s.params.clkW → s.captureEn = false →
    ∃ t, exec (.edge ts) s = .next t ∧ SameItems s t ∧ SameOutside s t ∧ t.resp = .undriven ∧
      t.outcome = some (.ignored ts)

/-- An INVALID interval completes, empties CURSOR and SUM, and keeps the entries of SEQ (R105); LAST_TS takes the new
edge's time (R102) and the flags stay. -/
def Obligations.InvalidIntervalEmptiesSequence : Prop :=
  ∀ (s : State) (ts : Nat), ts < 2 ^ s.params.clkW → s.captureEn = true →
    classify s.params (elapsed s.params.clkW ts s.lastTs) = none →
    ∃ t, exec (.edge ts) s = .next t ∧ t.cursor = 0#6 ∧ t.sum = 0#6 ∧ t.seq = s.seq ∧ t.lastTs = ts ∧
      t.msgReady = s.msgReady ∧ t.captureEn = s.captureEn ∧ SameOutside s t ∧ t.resp = .undriven ∧
      t.outcome = some (.noiseReset (elapsed s.params.clkW ts s.lastTs))

/-- A unit 6 completes from every CURSOR and SUM: the sequence is emptied and the 6 appended, so that CURSOR = 1, SUM = 6
and SEQ[0] = 6 (R106); it never completes a message (R109). -/
def Obligations.LeaderRestartsSequence : Prop :=
  ∀ (s : State) (ts : Nat), ts < 2 ^ s.params.clkW → s.captureEn = true →
    classify s.params (elapsed s.params.clkW ts s.lastTs) = some .u6 →
    ∃ t, exec (.edge ts) s = .next t ∧ t.cursor = 1#6 ∧ t.sum = 6#6 ∧ t.seq.entry 0 = some 6#3 ∧
      storeIndex s .u6 = 0 ∧ (∀ a, a ≠ storeIndex s .u6 → t.seq.entry a = s.seq.entry a) ∧ t.lastTs = ts ∧
      t.msgReady = s.msgReady ∧ t.captureEn = s.captureEn ∧ SameOutside s t ∧ t.resp = .undriven ∧
      t.outcome = some (.leaderRestart (elapsed s.params.clkW ts s.lastTs))

/-- A unit 1, 2 or 3 that meets CURSOR = 44 completes, empties CURSOR and SUM, discards the unit and leaves the flags
(R107). -/
def Obligations.FullSequenceOverflows : Prop :=
  ∀ (s : State) (ts : Nat) (u : Quantum), ts < 2 ^ s.params.clkW → s.captureEn = true → u ≠ .u6 →
    classify s.params (elapsed s.params.clkW ts s.lastTs) = some u → s.cursor = 44#6 →
    ∃ t, exec (.edge ts) s = .next t ∧ t.cursor = 0#6 ∧ t.sum = 0#6 ∧ t.seq = s.seq ∧ t.lastTs = ts ∧
      t.msgReady = s.msgReady ∧ t.captureEn = s.captureEn ∧ SameOutside s t ∧ t.resp = .undriven ∧
      t.outcome = some (.overflowReset (elapsed s.params.clkW ts s.lastTs))

/-- A unit 1, 2 or 3 below capacity completes: SEQ[CURSOR] takes it, CURSOR grows by 1 and SUM by the unit (R108). If SUM
then exceeds 50, MSG_READY is set and CAPTURE_EN cleared in the same step, else both stay (R109). -/
def Obligations.UnitIsAppendedAndCompletes : Prop :=
  ∀ (s : State) (ts : Nat) (u : Quantum), ts < 2 ^ s.params.clkW → s.captureEn = true → u ≠ .u6 →
    classify s.params (elapsed s.params.clkW ts s.lastTs) = some u → s.cursor.toNat < 44 → s.sum.toNat ≤ 50 →
    ∃ t, exec (.edge ts) s = .next t ∧ t.cursor.toNat = s.cursor.toNat + 1 ∧
      t.sum.toNat = s.sum.toNat + u.bits.toNat ∧ t.seq.entry (storeIndex s u) = some u.bits ∧
      storeIndex s u = s.cursor.toNat ∧ (∀ a, a ≠ storeIndex s u → t.seq.entry a = s.seq.entry a) ∧
      t.lastTs = ts ∧ SameOutside s t ∧ t.resp = .undriven ∧
      (50 < s.sum.toNat + u.bits.toNat →
        t.msgReady = true ∧ t.captureEn = false ∧ t.outcome = some (.complete t.cursor)) ∧
      (s.sum.toNat + u.bits.toNat ≤ 50 →
        t.msgReady = s.msgReady ∧ t.captureEn = s.captureEn ∧ t.outcome = some (.append u))

/-- SeqRead and SeqWrite (R51): a write of an entry in 0..43 answers, the entry then reads as written, every other reads
as before and the canonical form is kept; a read of an entry that holds no value faults (R21). -/
def Obligations.SequenceReadsWhatWasWritten : Prop :=
  ∀ (m : Memory) (i : Nat) (v : Entry), m.wf = true → i < 44 →
    (∃ m', seqWrite m i v = .ok m' ∧ m'.wf = true ∧ seqRead m' i = .ok v ∧
      ∀ j, j ≠ i → seqRead m' j = seqRead m j) ∧
    (m.entry i = none → seqRead m i = .error (.seqReadNoValue i))

/-- The frame of EDGE, for every state and operand: at most the entry at the address it stores to changes; the
parameters and the port stay and no response is driven (R52, R110). -/
def Obligations.EdgeStoresOneEntryOnly : Prop :=
  ∀ (s t : State) (ts : Nat), exec (.edge ts) s = .next t →
    SameOutside s t ∧ t.resp = .undriven ∧
      ∀ a, (∀ u, s.captureEn = true →
          classify s.params (elapsed s.params.clkW (operandTs s.params ts) s.lastTs) = some u → a ≠ storeIndex s u) →
        t.seq.entry a = s.seq.entry a

/-- Every EDGE ends in exactly the outcome its cause calls for, the first that holds in the order IGNORED, NOISE_RESET,
OVERFLOW_RESET, COMPLETE, LEADER_RESTART or APPEND, with the info it records (R181, R187). -/
def Obligations.EdgeOutcomeFollowsItsCause : Prop :=
  ∀ (s t : State) (ts e : Nat), s.Inv → ts < 2 ^ s.params.clkW → e = elapsed s.params.clkW ts s.lastTs →
    exec (.edge ts) s = .next t →
    (s.captureEn = false → t.outcome = some (.ignored ts)) ∧
    (s.captureEn = true →
      (s.params.th4 ≤ e → t.outcome = some (.noiseReset e)) ∧
      (s.params.th3 ≤ e → e < s.params.th4 → t.outcome = some (.leaderRestart e)) ∧
      ∀ u : Quantum, u ≠ .u6 → classify s.params e = some u →
        (s.cursor.toNat = 44 → t.outcome = some (.overflowReset e)) ∧
        (s.cursor.toNat < 44 → 50 < s.sum.toNat + u.bits.toNat → t.outcome = some (.complete (s.cursor + 1#6))) ∧
        (s.cursor.toNat < 44 → s.sum.toNat + u.bits.toNat ≤ 50 → t.outcome = some (.append u)))

/-- The code numbers of the outcomes (R181, R182). -/
def Obligations.OutcomesHaveTheirCodes : Prop :=
  ∀ (u : Quantum) (e ts : Nat) (n : Count) (c : Code),
    edgeOutcomeCode (.append u) = some 0 ∧ edgeOutcomeCode (.leaderRestart e) = some 1 ∧
    edgeOutcomeCode (.complete n) = some 2 ∧ edgeOutcomeCode (.noiseReset e) = some 3 ∧
    edgeOutcomeCode (.overflowReset e) = some 4 ∧ edgeOutcomeCode (.ignored ts) = some 5 ∧
    pollOutcomeCode .noMessage = some 0 ∧ pollOutcomeCode .headerFail = some 1 ∧
    pollOutcomeCode (.decoded c) = some 2

/-! ### The polls and DECODE (spec/41_decoder.md) -/

/-- Without a message both polls complete, answer none and change no state (R130, R131, D26). -/
def Obligations.PollWithoutMessageIsNone : Prop :=
  ∀ s : State, s.msgReady = false →
    (∃ t, exec .pollCode s = .next t ∧ SameItems s t ∧ SameOutside s t ∧ t.resp = .code none ∧
      t.outcome = some .noMessage) ∧
    (∃ t, exec .pollFields s = .next t ∧ SameItems s t ∧ SameOutside s t ∧ t.resp = .fields none ∧
      t.outcome = some .noMessage)

/-- A message whose first three entries are not (6, 2, 1) in that order is consumed by either poll, which completes with
outcome HEADER_FAIL and answers none (R133, R185). -/
def Obligations.MalformedHeaderIsConsumed : Prop :=
  ∀ (s : State) (a b c : Entry), s.msgReady = true → s.seq.entry 0 = some a → s.seq.entry 1 = some b →
    s.seq.entry 2 = some c → (a, b, c) ≠ (6#3, 2#3, 1#3) →
    (∃ t, exec .pollCode s = .next t ∧ t.cursor = 0#6 ∧ t.sum = 0#6 ∧ t.msgReady = false ∧ t.captureEn = true ∧
      t.seq = s.seq ∧ t.lastTs = s.lastTs ∧ SameOutside s t ∧ t.resp = .code none ∧ t.outcome = some .headerFail) ∧
    (∃ t, exec .pollFields s = .next t ∧ t.cursor = 0#6 ∧ t.sum = 0#6 ∧ t.msgReady = false ∧ t.captureEn = true ∧
      t.seq = s.seq ∧ t.lastTs = s.lastTs ∧ SameOutside s t ∧ t.resp = .fields none ∧ t.outcome = some .headerFail)

/-- The skew compensation of a buffered message with a valid header (R134): where an entry j ends at offset 18 exactly,
SEQ[j] and SEQ[j+1] lose 1 each, with 3 ≤ j ≤ 12, j + 1 below the cursor and no underflow; where none does, nothing
changes. At most one entry ends there. The decrement is R134's own; the bounds on j, its uniqueness and the absence of an
underflow are the inferences R134 marks as derived from R133 and R32. -/
def Obligations.CompensationDecrementsAtEighteen : Prop :=
  ∀ s : State, s.Inv → s.msgReady = true → HeaderHolds s.seq →
    ∃ m, compensate s.seq = .ok m ∧
      (∀ j, prefixSum s.seq (j + 1) = 18 →
        3 ≤ j ∧ j ≤ 12 ∧ j + 1 < s.cursor.toNat ∧ (∀ j', prefixSum s.seq (j' + 1) = 18 → j' = j) ∧
        entryUnits m j + 1 = entryUnits s.seq j ∧ entryUnits m (j + 1) + 1 = entryUnits s.seq (j + 1) ∧
        ∀ k, k ≠ j → k ≠ j + 1 → m.entry k = s.seq.entry k) ∧
      ((∀ j, prefixSum s.seq (j + 1) ≠ 18) → m = s.seq)

/-- DEMODULATE of a buffered message with a valid header (R135): it ends with the first entry, below the cursor, whose
offset reaches 49, and the code packs the level at every entry that ends at an odd offset, the first sample highest. -/
def Obligations.DemodulationSamplesOddOffsets : Prop :=
  ∀ (s : State) (m : Memory), s.Inv → s.msgReady = true → HeaderHolds s.seq → compensate s.seq = .ok m →
    ∃ w last, demodulate m = .ok w ∧ 2 ≤ last ∧ last < s.cursor.toNat ∧ 49 ≤ demodOffset m last ∧
      (∀ k, 2 ≤ k → k < last → demodOffset m k < 49) ∧ w.off = demodOffset m last ∧ w.idx = last + 1 ∧
      w.samples = (samplePoints m last).length ∧ w.code = packSamples ((samplePoints m last).map levelAt)

/-- A buffered message with a valid header: both polls complete, consume it, re-arm capture and return the code as the
demodulation of the compensated sequence left it, unmasked (R132, R136); POLL_FIELDS returns its fields (R131). -/
def Obligations.BufferedMessageIsDecoded : Prop :=
  ∀ s : State, s.Inv → s.msgReady = true → HeaderHolds s.seq →
    ∃ m w, compensate s.seq = .ok m ∧ demodulate m = .ok w ∧
      (∃ t, exec .pollCode s = .next t ∧ t.cursor = 0#6 ∧ t.sum = 0#6 ∧ t.msgReady = false ∧ t.captureEn = true ∧
        t.seq = m ∧ t.lastTs = s.lastTs ∧ SameOutside s t ∧ t.resp = .code (some w.code) ∧
        t.outcome = some (.decoded w.code)) ∧
      (∃ t, exec .pollFields s = .next t ∧ t.cursor = 0#6 ∧ t.sum = 0#6 ∧ t.msgReady = false ∧ t.captureEn = true ∧
        t.seq = m ∧ t.lastTs = s.lastTs ∧ SameOutside s t ∧ t.resp = .fields (some (fieldsOf w.code)) ∧
        t.outcome = some (.decoded w.code))

/-- POLL_FIELDS is POLL_CODE with the response decomposed, in every state (R131). -/
def Obligations.PollFieldsIsPollCodeDecomposed : Prop :=
  ∀ s : State,
    (∀ t, exec .pollCode s = .next t →
      ∃ r, t.resp = .code r ∧ exec .pollFields s = .next { t with resp := .fields (r.map fieldsOf) }) ∧
    (∀ f, exec .pollCode s = .fault f ↔ exec .pollFields s = .fault f)

/-- The frame of the polls, for every state: LAST_TS, the parameters and the port stay, and no entry but the two the
compensation decrements changes (R52, R134). -/
def Obligations.PollWritesAroundToggleOnly : Prop :=
  ∀ (s t : State) (i : Instr), i = .pollCode ∨ i = .pollFields → exec i s = .next t →
    SameOutside s t ∧ t.lastTs = s.lastTs ∧
      ∀ a, (s.msgReady = true → ∀ j, toggleEntry s.seq = .ok (some j) → a ≠ j ∧ a ≠ j + 1) →
        t.seq.entry a = s.seq.entry a

/-- The field decomposition, field by field (R137). -/
def Obligations.FieldsFollowPackedLayout : Prop :=
  ∀ c : Code, (fieldsOf c).toggle = c.getLsbD 16 ∧ (fieldsOf c).mode.toNat = c.toNat / 2 ^ 17 % 2 ^ 3 ∧
    (fieldsOf c).group.toNat = c.toNat / 2 ^ 8 % 2 ^ 8 ∧ (fieldsOf c).cmd.toNat = c.toNat % 2 ^ 8

/-- The bounds on the code of a buffered message with a valid header: n samples with 1 ≤ n ≤ 23, the code below 2^n and
its bit n - 1 set (R138). -/
def Obligations.CodeIsBoundedBySamples : Prop :=
  ∀ (s : State) (m : Memory) (w : Walk), s.Inv → s.msgReady = true → HeaderHolds s.seq →
    compensate s.seq = .ok m → demodulate m = .ok w →
    1 ≤ w.samples ∧ w.samples ≤ 23 ∧ w.code.toNat < 2 ^ w.samples ∧ w.code.toNat < 2 ^ 23 ∧
      w.code.getLsbD (w.samples - 1) = true

/-- What the response lines carry after a poll (R75, R76). The lines a poll does not drive are free values. -/
def Obligations.PollsDriveTheirLines : Prop :=
  ∀ s : State,
    (∀ c, s.resp = .code (some c) → s.ports.respPresent = true ∧ s.ports.respCode = c) ∧
    (s.resp = .code none → s.ports.respPresent = false ∧ s.ports.respCode = 0#32) ∧
    (∀ f, s.resp = .fields (some f) → s.ports.respPresent = true ∧ s.ports.respToggle = f.toggle ∧
      s.ports.respMode = f.mode ∧ s.ports.respGroup = f.group ∧ s.ports.respCmd = f.cmd) ∧
    (s.resp = .fields none → s.ports.respPresent = false ∧ s.ports.respToggle = false ∧
      s.ports.respMode = 0#3 ∧ s.ports.respGroup = 0#8 ∧ s.ports.respCmd = 0#8)

/-- The two status outputs carry the two flags, whatever the last response was (R81). -/
def Obligations.StatusOutputsCarryFlags : Prop :=
  ∀ s : State, s.ports.msgReady = s.msgReady ∧ s.ports.captureEn = s.captureEn

/-! ### Sequences of commands (spec/20_memory.md R57, R59, spec/60_exceptions.md R183, R187, spec/70 R203, R205) -/

/-- Hand-off: while a message is buffered, no sequence of EDGE and NOP changes any of the six items (R59, R61). -/
def Obligations.HandOffKeepsMessage : Prop :=
  ∀ (is : List Instr) (s : State), s.Inv → s.msgReady = true → (∀ i ∈ is, i = .nop ∨ ∃ ts, i = .edge ts) →
    ∃ t, execAll is s = .next t ∧ SameItems s t

/-- A partial capture stays pending: no sequence of NOP and polls changes it, and every poll goes on answering none
(R183). -/
def Obligations.PartialCaptureStaysPending : Prop :=
  ∀ (is : List Instr) (s : State), s.msgReady = false →
    (∀ i ∈ is, i = .nop ∨ i = .pollCode ∨ i = .pollFields) →
    ∃ t, execAll is s = .next t ∧ SameItems s t ∧ (∃ u, exec .pollCode t = .next u ∧ u.resp = .code none) ∧
      ∃ u, exec .pollFields t = .next u ∧ u.resp = .fields none

/-- After every poll, whatever its outcome, capture is enabled, and an immediate second poll answers none and changes
nothing: consumption is single-use (R57, R136, R213). -/
def Obligations.PollRearmsAndConsumesOnce : Prop :=
  ∀ (s t : State) (i : Instr), s.Inv → i = .pollCode ∨ i = .pollFields → exec i s = .next t →
    t.captureEn = true ∧ t.msgReady = false ∧
      (∃ u, exec .pollCode t = .next u ∧ SameItems t u ∧ u.resp = .code none) ∧
      ∃ u, exec .pollFields t = .next u ∧ SameItems t u ∧ u.resp = .fields none

/-- An EDGE that completes a message and a POLL_CODE issued at the same moment (R187): the EDGE first gives DECODED or
HEADER_FAIL; the POLL_CODE first gives NO_MESSAGE, and the EDGE then still completes the message. -/
def Obligations.CompletingEdgeAndPollInEitherOrder : Prop :=
  ∀ (s t : State) (ts : Nat), s.Inv → s.msgReady = false → exec (.edge ts) s = .next t → t.msgReady = true →
    (∃ u, exec .pollCode t = .next u ∧ (u.outcome = some .headerFail ∨ ∃ c, u.outcome = some (.decoded c))) ∧
    ∃ v w, exec .pollCode s = .next v ∧ v.outcome = some .noMessage ∧ exec (.edge ts) v = .next w ∧
      SameItems t w ∧ w.outcome = t.outcome

/-- Edges while COMPLETE are lost, and the first admitted EDGE after the re-arm is measured from the completing edge
(R203, R205): whatever edges came before the poll, its interval counts from the LAST_TS they found, and it starts an
empty sequence. -/
def Obligations.FirstEdgeAfterRearmIsMeasuredFromCompletion : Prop :=
  ∀ (is : List Instr) (s : State) (ts : Nat), s.Inv → s.msgReady = true →
    (∀ i ∈ is, i = .nop ∨ ∃ x, i = .edge x) → ts < 2 ^ s.params.clkW →
    ∃ t u, execAll (is ++ [.pollCode]) s = .next t ∧ exec (.edge ts) t = .next u ∧ u.lastTs = ts ∧
      (classify s.params (elapsed s.params.clkW ts s.lastTs) = none → u.cursor = 0#6 ∧ u.sum = 0#6) ∧
      ∀ q, classify s.params (elapsed s.params.clkW ts s.lastTs) = some q →
        u.cursor = 1#6 ∧ u.sum.toNat = q.bits.toNat ∧ u.seq.entry 0 = some q.bits

/-! ### The well-formed frame (spec/41_decoder.md R139, R140, spec/40_edge_capture.md R112) -/

/-- The units capture keeps of a well-formed frame pass the header and demodulate, after exactly 21 samples, to the
frame's code, whose fields are the frame's own (R140, an inference of the spec). The frame itself is presumed: its start
bit, polarity, idle level and field order are R139's items G1 to G4 (log 15, PRESUMED). -/
def Obligations.FrameUnitsDecodeToTheirFields : Prop :=
  ∀ (f : Fields) (m : Memory), HoldsUnits m (captured 0 (frameUnits f)) →
    headerOk m = .ok true ∧ ∃ m' w, compensate m = .ok m' ∧ demodulate m' = .ok w ∧ w.code = frameCode f ∧
      w.samples = 21 ∧ fieldsOf w.code = f

/-- The EDGEs of a well-formed frame, each interval inside its class, the first one INVALID: the message completes with
SUM = 51 and CURSOR between 23 and 43, and SEQ holds the frame's captured units (R112, an inference of the spec). The
frame itself is presumed: R139's items G1 to G4 (log 15, PRESUMED). -/
def Obligations.FrameCaptureCompletesAtFiftyOne : Prop :=
  ∀ (s : State) (f : Fields) (t0 : Nat) (ts : List Nat), s.Inv → s.captureEn = true → t0 < 2 ^ s.params.clkW →
    classify s.params (elapsed s.params.clkW t0 s.lastTs) = none → fitsUnits s.params t0 ts (frameUnits f) = true →
    ∃ t, execAll ((t0 :: ts).map Instr.edge) s = .next t ∧ t.msgReady = true ∧ t.captureEn = false ∧
      t.sum = 51#6 ∧ 23 ≤ t.cursor.toNat ∧ t.cursor.toNat ≤ 43 ∧
      t.cursor.toNat = (captured 0 (frameUnits f)).length ∧ HoldsUnits t.seq (captured 0 (frameUnits f))

/-- Round trip over the port (R140): the words of a well-formed frame's EDGEs, the first at least TH4 after LAST_TS,
then a POLL_CODE or a POLL_FIELDS, make the block return the frame's code, or its fields, after exactly 21 samples. R140
is an inference of the spec, and the frame is presumed: R139's items G1 to G4 (log 15, PRESUMED). It holds of every
capturing state that meets the invariant, of which R140's block after RESET is one. -/
def Obligations.WellFormedFrameRoundTrip : Prop :=
  ∀ (s : State) (f : Fields) (t0 : Nat) (ts rest : List Nat), s.Inv → s.captureEn = true →
    t0 < 2 ^ s.params.clkW → s.params.th4 ≤ elapsed s.params.clkW t0 s.lastTs →
    fitsUnits s.params t0 ts (frameUnits f) = true →
    (∃ u m w, execAll ((t0 :: ts).map Instr.edge) s = .next u ∧ compensate u.seq = .ok m ∧ demodulate m = .ok w ∧
      w.samples = 21) ∧
    (s.cmds = ((t0 :: ts).map Instr.edge ++ [Instr.pollCode]).map (encode s.params.clkW) ++ rest →
      ∃ t, Host.Core.run Sys2Proof.core (ts.length + 2) s = .next t ∧ t.resp = .code (some (frameCode f)) ∧
        t.cmds = rest) ∧
    (s.cmds = ((t0 :: ts).map Instr.edge ++ [Instr.pollFields]).map (encode s.params.clkW) ++ rest →
      ∃ t, Host.Core.run Sys2Proof.core (ts.length + 2) s = .next t ∧ t.resp = .fields (some f) ∧ t.cmds = rest)

/-! ### Listings (spec/30_encoding.md R80, R83) -/

/-- Every command a listing stands for is well-formed, so its word decodes to it (R80). -/
def Obligations.ListingCommandsAreWellFormed : Prop :=
  ∀ (clkW : Nat) (text : List (List Char)) (is : List Instr), parseListing clkW text = .ok is →
    assemble clkW text = .ok (is.map (encode clkW)) ∧
      ∀ i ∈ is, WellFormed clkW i = true ∧ decode clkW (encode clkW i) = .ok i

/-- EDGE +delta stands for EDGE t with t = (t_prev + delta) mod 2^CLK_W, where t_prev is the nearest preceding EDGE line's
`ts`, whatever lines, other EDGEs among them, stand before that one; a listing whose first EDGE is relative is refused
(R83, U16). The lines before, if they stand for commands, keep them. Where the nearest preceding EDGE is itself relative,
the second clause first turns it into the EDGE it stands for. -/
def Obligations.RelativeEdgeExpands : Prop :=
  ∀ (clkW t d : Nat) (prev : Option Nat) (lead between after : List ListingLine), t < 2 ^ clkW → d < 2 ^ clkW →
    (∀ l ∈ between, l = .nop ∨ l = .pollCode ∨ l = .pollFields ∨ l = .reset) →
    expandLines clkW none (between ++ .edgePlus d :: after) = .error .relativeFirstEdge ∧
      expandLines clkW prev (lead ++ .edgeAt t :: between ++ .edgePlus d :: after) =
        expandLines clkW prev (lead ++ .edgeAt t :: between ++ .edgeAt ((t + d) % 2 ^ clkW) :: after) ∧
      ∀ is bs, expandLines clkW prev lead = .ok is → expandLines clkW none between = .ok bs →
        expandLines clkW prev (lead ++ .edgeAt t :: between ++ [.edgePlus d]) =
          .ok (is ++ .edge t :: bs ++ [.edge ((t + d) % 2 ^ clkW)])
end

