-- ==== Sys2Proof/Laws/Memory.lean ====
section
/-! SUPPORT. SEQ: read after write, the canonical form, and what each access can answer (spec/20_memory.md rule R51). -/

namespace Sys2Proof.Machine

@[simp] theorem Memory.entry_nil (i : Nat) : Memory.entry [] i = none := rfl

@[simp] theorem Memory.entry_cons (k : Nat) (v : Entry) (m : Memory) (i : Nat) :
    Memory.entry ((k, v) :: m) i = if k = i then some v else Memory.entry m i := rfl

/-- A read after a write of the same entry gives the value written; every other entry is left alone. -/
theorem Memory.entry_insert (m : Memory) (i j : Nat) (v : Entry) :
    (m.insert i v).entry j = if j = i then some v else m.entry j := by
  induction m with
  | nil => simp [Memory.insert, eq_comm]
  | cons c m ih =>
    obtain ⟨k, w⟩ := c
    unfold Memory.insert
    split
    · simp [eq_comm]
    · split
      · subst i; by_cases h : j = k <;> simp [h, eq_comm]
      · by_cases h : k = j
        · subst j; simp; omega
        · simp [h, ih]

@[simp] theorem Memory.entry_insert_self (m : Memory) (i : Nat) (v : Entry) : (m.insert i v).entry i = some v := by
  simp [Memory.entry_insert]

theorem Memory.entry_insert_of_ne (m : Memory) {i j : Nat} (v : Entry) (h : j ≠ i) :
    (m.insert i v).entry j = m.entry j := by
  simp [Memory.entry_insert, h]

theorem Memory.wfFrom_mono {m : Memory} {lo lo' : Nat} (h : m.wfFrom lo = true) (hl : lo' ≤ lo) :
    m.wfFrom lo' = true := by
  cases m with
  | nil => rfl
  | cons c m =>
    simp only [Memory.wfFrom, Bool.and_eq_true, decide_eq_true_eq] at h ⊢
    exact ⟨⟨by omega, h.1.2⟩, h.2⟩

theorem Memory.wfFrom_insert {m : Memory} {lo i : Nat} (v : Entry) (h : m.wfFrom lo = true) (hlo : lo ≤ i)
    (hi : i < Config.cap) : (m.insert i v).wfFrom lo = true := by
  induction m generalizing lo with
  | nil => simp [Memory.insert, Memory.wfFrom, hlo, hi]
  | cons c m ih =>
    obtain ⟨k, w⟩ := c
    simp only [Memory.wfFrom, Bool.and_eq_true, decide_eq_true_eq] at h
    unfold Memory.insert
    split
    · simp only [Memory.wfFrom, Bool.and_eq_true, decide_eq_true_eq]
      exact ⟨⟨hlo, hi⟩, ⟨by omega, h.1.2⟩, h.2⟩
    · split
      · subst i; simp only [Memory.wfFrom, Bool.and_eq_true, decide_eq_true_eq]; exact h
      · simp only [Memory.wfFrom, Bool.and_eq_true, decide_eq_true_eq]
        exact ⟨h.1, ih h.2 (by omega)⟩

/-- The empty sequence is in the canonical form. -/
@[simp] theorem Memory.wf_nil : Memory.wf [] = true := rfl

/-- A write keeps the canonical form. -/
theorem Memory.wf_insert {m : Memory} {i : Nat} (v : Entry) (h : m.wf = true) (hi : i < Config.cap) :
    (m.insert i v).wf = true := Memory.wfFrom_insert v h (Nat.zero_le i) hi

theorem Memory.entry_eq_none_of_wfFrom {m : Memory} {lo i : Nat} (h : m.wfFrom lo = true) (hi : i < lo) :
    m.entry i = none := by
  induction m generalizing lo with
  | nil => rfl
  | cons c m ih =>
    obtain ⟨k, w⟩ := c
    simp only [Memory.wfFrom, Bool.and_eq_true, decide_eq_true_eq] at h
    rw [Memory.entry_cons, if_neg (by omega), ih h.2 (by omega)]

/-- A canonical sequence holds no value outside 0..43. -/
theorem Memory.entry_eq_none_of_cap_le {m : Memory} {i : Nat} (h : m.wf = true) (hi : Config.cap ≤ i) :
    m.entry i = none := by
  suffices ∀ lo, m.wfFrom lo = true → m.entry i = none from this 0 h
  clear h
  intro lo h
  induction m generalizing lo with
  | nil => rfl
  | cons c m ih =>
    obtain ⟨k, w⟩ := c
    simp only [Memory.wfFrom, Bool.and_eq_true, decide_eq_true_eq] at h
    rw [Memory.entry_cons, if_neg (by omega), ih _ h.2]

/-- Equal sequences are equal data: two canonical sequences with the same entries are the same list. -/
theorem Memory.ext_of_wfFrom {m m' : Memory} {lo : Nat} (h : m.wfFrom lo = true) (h' : m'.wfFrom lo = true)
    (he : ∀ i, m.entry i = m'.entry i) : m = m' := by
  induction m generalizing m' lo with
  | nil =>
    cases m' with
    | nil => rfl
    | cons c m' => have := he c.1; simp [Memory.entry] at this
  | cons c m ih =>
    obtain ⟨k, w⟩ := c
    simp only [Memory.wfFrom, Bool.and_eq_true, decide_eq_true_eq] at h
    cases m' with
    | nil => have := he k; simp [Memory.entry] at this
    | cons c' m' =>
      obtain ⟨k', w'⟩ := c'
      simp only [Memory.wfFrom, Bool.and_eq_true, decide_eq_true_eq] at h'
      have hk : k = k' := by
        have h1 := he k
        have h2 := he k'
        simp only [Memory.entry_cons, if_true] at h1 h2
        by_contra hne
        rw [if_neg (by omega)] at h1 h2
        rcases Nat.lt_or_gt_of_ne hne with hlt | hgt
        · rw [Memory.entry_eq_none_of_wfFrom h'.2 (by omega)] at h1; simp at h1
        · rw [Memory.entry_eq_none_of_wfFrom h.2 (by omega)] at h2; simp at h2
      subst hk
      have hw : w = w' := by have := he k; simpa using this
      subst hw
      rw [ih h.2 h'.2]
      intro i
      by_cases hi : k = i
      · subst hi
        rw [Memory.entry_eq_none_of_wfFrom h.2 (by omega), Memory.entry_eq_none_of_wfFrom h'.2 (by omega)]
      · have := he i
        simpa [hi] using this

theorem Memory.ext_of_wf {m m' : Memory} (h : m.wf = true) (h' : m'.wf = true)
    (he : ∀ i, m.entry i = m'.entry i) : m = m' := Memory.ext_of_wfFrom h h' he

/-! ### What each access can answer -/

theorem seqRead_eq_ok {m : Memory} {i : Nat} {v : Entry} :
    seqRead m i = .ok v ↔ i < Config.cap ∧ m.entry i = some v := by
  unfold seqRead
  split
  · cases h : m.entry i <;> simp_all
  · simp_all

theorem seqRead_of_entry {m : Memory} {i : Nat} {v : Entry} (hi : i < Config.cap) (h : m.entry i = some v) :
    seqRead m i = .ok v := seqRead_eq_ok.2 ⟨hi, h⟩

theorem seqWrite_eq_ok {m t : Memory} {i : Nat} {v : Entry} :
    seqWrite m i v = .ok t ↔ i < Config.cap ∧ t = m.insert i v := by
  unfold seqWrite
  split <;> simp_all [eq_comm]

theorem seqWrite_of_lt (m : Memory) {i : Nat} (v : Entry) (hi : i < Config.cap) :
    seqWrite m i v = .ok (m.insert i v) := seqWrite_eq_ok.2 ⟨hi, rfl⟩

theorem seqDecrement_eq_ok {m t : Memory} {i : Nat} :
    seqDecrement m i = .ok t ↔
      i < Config.cap ∧ ∃ v, m.entry i = some v ∧ v ≠ 0#3 ∧ t = m.insert i (v - 1#3) := by
  unfold seqDecrement
  constructor
  · intro h
    cases hr : seqRead m i with
    | error f => simp [hr, bind, Except.bind] at h
    | ok v =>
      obtain ⟨hi, hv⟩ := seqRead_eq_ok.1 hr
      simp only [hr, bind, Except.bind] at h
      split at h
      · simp at h
      · exact ⟨hi, v, hv, by assumption, (seqWrite_eq_ok.1 h).2⟩
  · rintro ⟨hi, v, hv, h0, rfl⟩
    rw [seqRead_of_entry hi hv]
    simp [bind, Except.bind, h0, seqWrite_of_lt m _ hi]

/-! ### The cumulative offsets -/

@[simp] theorem prefixSum_zero (m : Memory) : prefixSum m 0 = 0 := rfl

theorem prefixSum_succ (m : Memory) (n : Nat) : prefixSum m (n + 1) = prefixSum m n + entryUnits m n := rfl

theorem entryUnits_of_entry {m : Memory} {k : Nat} {v : Entry} (h : m.entry k = some v) : entryUnits m k = v.toNat := by
  simp [entryUnits, h]

/-- The offsets depend on the entries they sum only. -/
theorem prefixSum_congr {m m' : Memory} {n : Nat} (h : ∀ k < n, m.entry k = m'.entry k) :
    prefixSum m n = prefixSum m' n := by
  induction n with
  | zero => rfl
  | succ n ih =>
    rw [prefixSum_succ, prefixSum_succ, ih fun k hk => h k (by omega), entryUnits, entryUnits, h n (by omega)]

theorem prefixSum_mono (m : Memory) {a b : Nat} (h : a ≤ b) : prefixSum m a ≤ prefixSum m b := by
  induction b with
  | zero => simp_all
  | succ b ih =>
    rcases Nat.lt_or_ge a (b + 1) with h' | h'
    · have := ih (by omega); rw [prefixSum_succ]; omega
    · rw [show a = b + 1 by omega]

end Sys2Proof.Machine
end

