-- ==== Sys2Proof/Laws/State.lean ====
section
/-! SUPPORT. Beside State: for each update one lemma per field, true by rfl, so that no proof unfolds a record update. -/

namespace Sys2Proof.Machine

/-! ### State.accept -/

@[simp] theorem State.accept_seq (s : State) : (s.accept).seq = s.seq := rfl
@[simp] theorem State.accept_cursor (s : State) : (s.accept).cursor = s.cursor := rfl
@[simp] theorem State.accept_sum (s : State) : (s.accept).sum = s.sum := rfl
@[simp] theorem State.accept_captureEn (s : State) : (s.accept).captureEn = s.captureEn := rfl
@[simp] theorem State.accept_msgReady (s : State) : (s.accept).msgReady = s.msgReady := rfl
@[simp] theorem State.accept_lastTs (s : State) : (s.accept).lastTs = s.lastTs := rfl
@[simp] theorem State.accept_params (s : State) : (s.accept).params = s.params := rfl
@[simp] theorem State.accept_cmds (s : State) : (s.accept).cmds = s.cmds := rfl
@[simp] theorem State.accept_resp (s : State) : (s.accept).resp = .undriven := rfl
@[simp] theorem State.accept_outcome (s : State) : (s.accept).outcome = none := rfl
@[simp] theorem State.accept_freeIdx (s : State) : (s.accept).freeIdx = s.freeIdx + 1 := rfl

/-! ### State.idle -/

@[simp] theorem State.idle_seq (s : State) : (s.idle).seq = s.seq := rfl
@[simp] theorem State.idle_cursor (s : State) : (s.idle).cursor = s.cursor := rfl
@[simp] theorem State.idle_sum (s : State) : (s.idle).sum = s.sum := rfl
@[simp] theorem State.idle_captureEn (s : State) : (s.idle).captureEn = s.captureEn := rfl
@[simp] theorem State.idle_msgReady (s : State) : (s.idle).msgReady = s.msgReady := rfl
@[simp] theorem State.idle_lastTs (s : State) : (s.idle).lastTs = s.lastTs := rfl
@[simp] theorem State.idle_params (s : State) : (s.idle).params = s.params := rfl
@[simp] theorem State.idle_cmds (s : State) : (s.idle).cmds = s.cmds := rfl
@[simp] theorem State.idle_resp (s : State) : (s.idle).resp = .undriven := rfl
@[simp] theorem State.idle_outcome (s : State) : (s.idle).outcome = none := rfl
@[simp] theorem State.idle_freeIdx (s : State) : (s.idle).freeIdx = s.freeIdx + 1 := rfl

/-! ### State.record -/

@[simp] theorem State.record_seq (s : State) (o : CmdOutcome) : (s.record o).seq = s.seq := rfl
@[simp] theorem State.record_cursor (s : State) (o : CmdOutcome) : (s.record o).cursor = s.cursor := rfl
@[simp] theorem State.record_sum (s : State) (o : CmdOutcome) : (s.record o).sum = s.sum := rfl
@[simp] theorem State.record_captureEn (s : State) (o : CmdOutcome) : (s.record o).captureEn = s.captureEn := rfl
@[simp] theorem State.record_msgReady (s : State) (o : CmdOutcome) : (s.record o).msgReady = s.msgReady := rfl
@[simp] theorem State.record_lastTs (s : State) (o : CmdOutcome) : (s.record o).lastTs = s.lastTs := rfl
@[simp] theorem State.record_params (s : State) (o : CmdOutcome) : (s.record o).params = s.params := rfl
@[simp] theorem State.record_cmds (s : State) (o : CmdOutcome) : (s.record o).cmds = s.cmds := rfl
@[simp] theorem State.record_resp (s : State) (o : CmdOutcome) : (s.record o).resp = s.resp := rfl
@[simp] theorem State.record_outcome (s : State) (o : CmdOutcome) : (s.record o).outcome = some o := rfl
@[simp] theorem State.record_freeIdx (s : State) (o : CmdOutcome) : (s.record o).freeIdx = s.freeIdx := rfl

/-! ### State.respond -/

@[simp] theorem State.respond_seq (s : State) (r : Resp) : (s.respond r).seq = s.seq := rfl
@[simp] theorem State.respond_cursor (s : State) (r : Resp) : (s.respond r).cursor = s.cursor := rfl
@[simp] theorem State.respond_sum (s : State) (r : Resp) : (s.respond r).sum = s.sum := rfl
@[simp] theorem State.respond_captureEn (s : State) (r : Resp) : (s.respond r).captureEn = s.captureEn := rfl
@[simp] theorem State.respond_msgReady (s : State) (r : Resp) : (s.respond r).msgReady = s.msgReady := rfl
@[simp] theorem State.respond_lastTs (s : State) (r : Resp) : (s.respond r).lastTs = s.lastTs := rfl
@[simp] theorem State.respond_params (s : State) (r : Resp) : (s.respond r).params = s.params := rfl
@[simp] theorem State.respond_cmds (s : State) (r : Resp) : (s.respond r).cmds = s.cmds := rfl
@[simp] theorem State.respond_resp (s : State) (r : Resp) : (s.respond r).resp = r := rfl
@[simp] theorem State.respond_outcome (s : State) (r : Resp) : (s.respond r).outcome = s.outcome := rfl
@[simp] theorem State.respond_freeIdx (s : State) (r : Resp) : (s.respond r).freeIdx = s.freeIdx := rfl

/-! ### State.setLastTs -/

@[simp] theorem State.setLastTs_seq (s : State) (ts : Nat) : (s.setLastTs ts).seq = s.seq := rfl
@[simp] theorem State.setLastTs_cursor (s : State) (ts : Nat) : (s.setLastTs ts).cursor = s.cursor := rfl
@[simp] theorem State.setLastTs_sum (s : State) (ts : Nat) : (s.setLastTs ts).sum = s.sum := rfl
@[simp] theorem State.setLastTs_captureEn (s : State) (ts : Nat) : (s.setLastTs ts).captureEn = s.captureEn := rfl
@[simp] theorem State.setLastTs_msgReady (s : State) (ts : Nat) : (s.setLastTs ts).msgReady = s.msgReady := rfl
@[simp] theorem State.setLastTs_lastTs (s : State) (ts : Nat) : (s.setLastTs ts).lastTs = ts % 2 ^ s.params.clkW := rfl
@[simp] theorem State.setLastTs_params (s : State) (ts : Nat) : (s.setLastTs ts).params = s.params := rfl
@[simp] theorem State.setLastTs_cmds (s : State) (ts : Nat) : (s.setLastTs ts).cmds = s.cmds := rfl
@[simp] theorem State.setLastTs_resp (s : State) (ts : Nat) : (s.setLastTs ts).resp = s.resp := rfl
@[simp] theorem State.setLastTs_outcome (s : State) (ts : Nat) : (s.setLastTs ts).outcome = s.outcome := rfl
@[simp] theorem State.setLastTs_freeIdx (s : State) (ts : Nat) : (s.setLastTs ts).freeIdx = s.freeIdx := rfl

/-! ### State.emptySeq -/

@[simp] theorem State.emptySeq_seq (s : State) : (s.emptySeq).seq = s.seq := rfl
@[simp] theorem State.emptySeq_cursor (s : State) : (s.emptySeq).cursor = 0#6 := rfl
@[simp] theorem State.emptySeq_sum (s : State) : (s.emptySeq).sum = 0#6 := rfl
@[simp] theorem State.emptySeq_captureEn (s : State) : (s.emptySeq).captureEn = s.captureEn := rfl
@[simp] theorem State.emptySeq_msgReady (s : State) : (s.emptySeq).msgReady = s.msgReady := rfl
@[simp] theorem State.emptySeq_lastTs (s : State) : (s.emptySeq).lastTs = s.lastTs := rfl
@[simp] theorem State.emptySeq_params (s : State) : (s.emptySeq).params = s.params := rfl
@[simp] theorem State.emptySeq_cmds (s : State) : (s.emptySeq).cmds = s.cmds := rfl
@[simp] theorem State.emptySeq_resp (s : State) : (s.emptySeq).resp = s.resp := rfl
@[simp] theorem State.emptySeq_outcome (s : State) : (s.emptySeq).outcome = s.outcome := rfl
@[simp] theorem State.emptySeq_freeIdx (s : State) : (s.emptySeq).freeIdx = s.freeIdx := rfl

/-! ### State.clearAll -/

@[simp] theorem State.clearAll_seq (s : State) : (s.clearAll).seq = [] := rfl
@[simp] theorem State.clearAll_cursor (s : State) : (s.clearAll).cursor = 0#6 := rfl
@[simp] theorem State.clearAll_sum (s : State) : (s.clearAll).sum = 0#6 := rfl
@[simp] theorem State.clearAll_captureEn (s : State) : (s.clearAll).captureEn = true := rfl
@[simp] theorem State.clearAll_msgReady (s : State) : (s.clearAll).msgReady = false := rfl
@[simp] theorem State.clearAll_lastTs (s : State) : (s.clearAll).lastTs = s.params.lastTsInit := rfl
@[simp] theorem State.clearAll_params (s : State) : (s.clearAll).params = s.params := rfl
@[simp] theorem State.clearAll_cmds (s : State) : (s.clearAll).cmds = s.cmds := rfl
@[simp] theorem State.clearAll_resp (s : State) : (s.clearAll).resp = s.resp := rfl
@[simp] theorem State.clearAll_outcome (s : State) : (s.clearAll).outcome = s.outcome := rfl
@[simp] theorem State.clearAll_freeIdx (s : State) : (s.clearAll).freeIdx = s.freeIdx := rfl

/-! ### State.completeMsg -/

@[simp] theorem State.completeMsg_seq (s : State) : (s.completeMsg).seq = s.seq := rfl
@[simp] theorem State.completeMsg_cursor (s : State) : (s.completeMsg).cursor = s.cursor := rfl
@[simp] theorem State.completeMsg_sum (s : State) : (s.completeMsg).sum = s.sum := rfl
@[simp] theorem State.completeMsg_captureEn (s : State) : (s.completeMsg).captureEn = false := rfl
@[simp] theorem State.completeMsg_msgReady (s : State) : (s.completeMsg).msgReady = true := rfl
@[simp] theorem State.completeMsg_lastTs (s : State) : (s.completeMsg).lastTs = s.lastTs := rfl
@[simp] theorem State.completeMsg_params (s : State) : (s.completeMsg).params = s.params := rfl
@[simp] theorem State.completeMsg_cmds (s : State) : (s.completeMsg).cmds = s.cmds := rfl
@[simp] theorem State.completeMsg_resp (s : State) : (s.completeMsg).resp = s.resp := rfl
@[simp] theorem State.completeMsg_outcome (s : State) : (s.completeMsg).outcome = s.outcome := rfl
@[simp] theorem State.completeMsg_freeIdx (s : State) : (s.completeMsg).freeIdx = s.freeIdx := rfl

/-! ### State.consume -/

@[simp] theorem State.consume_seq (s : State) : (s.consume).seq = s.seq := rfl
@[simp] theorem State.consume_cursor (s : State) : (s.consume).cursor = 0#6 := rfl
@[simp] theorem State.consume_sum (s : State) : (s.consume).sum = 0#6 := rfl
@[simp] theorem State.consume_captureEn (s : State) : (s.consume).captureEn = s.captureEn := rfl
@[simp] theorem State.consume_msgReady (s : State) : (s.consume).msgReady = false := rfl
@[simp] theorem State.consume_lastTs (s : State) : (s.consume).lastTs = s.lastTs := rfl
@[simp] theorem State.consume_params (s : State) : (s.consume).params = s.params := rfl
@[simp] theorem State.consume_cmds (s : State) : (s.consume).cmds = s.cmds := rfl
@[simp] theorem State.consume_resp (s : State) : (s.consume).resp = s.resp := rfl
@[simp] theorem State.consume_outcome (s : State) : (s.consume).outcome = s.outcome := rfl
@[simp] theorem State.consume_freeIdx (s : State) : (s.consume).freeIdx = s.freeIdx := rfl

/-! ### State.rearm -/

@[simp] theorem State.rearm_seq (s : State) : (s.rearm).seq = s.seq := rfl
@[simp] theorem State.rearm_cursor (s : State) : (s.rearm).cursor = s.cursor := rfl
@[simp] theorem State.rearm_sum (s : State) : (s.rearm).sum = s.sum := rfl
@[simp] theorem State.rearm_captureEn (s : State) : (s.rearm).captureEn = true := rfl
@[simp] theorem State.rearm_msgReady (s : State) : (s.rearm).msgReady = s.msgReady := rfl
@[simp] theorem State.rearm_lastTs (s : State) : (s.rearm).lastTs = s.lastTs := rfl
@[simp] theorem State.rearm_params (s : State) : (s.rearm).params = s.params := rfl
@[simp] theorem State.rearm_cmds (s : State) : (s.rearm).cmds = s.cmds := rfl
@[simp] theorem State.rearm_resp (s : State) : (s.rearm).resp = s.resp := rfl
@[simp] theorem State.rearm_outcome (s : State) : (s.rearm).outcome = s.outcome := rfl
@[simp] theorem State.rearm_freeIdx (s : State) : (s.rearm).freeIdx = s.freeIdx := rfl

/-! ### State.withFetchWord -/

@[simp] theorem State.withFetchWord_seq (s : State) (n w : Nat) : (s.withFetchWord n w).seq = s.seq := rfl
@[simp] theorem State.withFetchWord_cursor (s : State) (n w : Nat) : (s.withFetchWord n w).cursor = s.cursor := rfl
@[simp] theorem State.withFetchWord_sum (s : State) (n w : Nat) : (s.withFetchWord n w).sum = s.sum := rfl
@[simp] theorem State.withFetchWord_captureEn (s : State) (n w : Nat) : (s.withFetchWord n w).captureEn = s.captureEn := rfl
@[simp] theorem State.withFetchWord_msgReady (s : State) (n w : Nat) : (s.withFetchWord n w).msgReady = s.msgReady := rfl
@[simp] theorem State.withFetchWord_lastTs (s : State) (n w : Nat) : (s.withFetchWord n w).lastTs = s.lastTs := rfl
@[simp] theorem State.withFetchWord_params (s : State) (n w : Nat) : (s.withFetchWord n w).params = s.params := rfl
@[simp] theorem State.withFetchWord_cmds (s : State) (n w : Nat) : (s.withFetchWord n w).cmds = relayWord s.params.clkW w :: s.cmds := rfl
@[simp] theorem State.withFetchWord_resp (s : State) (n w : Nat) : (s.withFetchWord n w).resp = s.resp := rfl
@[simp] theorem State.withFetchWord_outcome (s : State) (n w : Nat) : (s.withFetchWord n w).outcome = s.outcome := rfl
@[simp] theorem State.withFetchWord_freeIdx (s : State) (n w : Nat) : (s.withFetchWord n w).freeIdx = s.freeIdx := rfl

/-! ### State.resetWith -/

@[simp] theorem State.resetWith_seq (p : Params) (c : List Nat) : (State.resetWith p c).seq = [] := rfl
@[simp] theorem State.resetWith_cursor (p : Params) (c : List Nat) : (State.resetWith p c).cursor = 0#6 := rfl
@[simp] theorem State.resetWith_sum (p : Params) (c : List Nat) : (State.resetWith p c).sum = 0#6 := rfl
@[simp] theorem State.resetWith_captureEn (p : Params) (c : List Nat) : (State.resetWith p c).captureEn = true := rfl
@[simp] theorem State.resetWith_msgReady (p : Params) (c : List Nat) : (State.resetWith p c).msgReady = false := rfl
@[simp] theorem State.resetWith_lastTs (p : Params) (c : List Nat) : (State.resetWith p c).lastTs = p.lastTsInit := rfl
@[simp] theorem State.resetWith_params (p : Params) (c : List Nat) : (State.resetWith p c).params = p := rfl
@[simp] theorem State.resetWith_cmds (p : Params) (c : List Nat) : (State.resetWith p c).cmds = c := rfl
@[simp] theorem State.resetWith_resp (p : Params) (c : List Nat) : (State.resetWith p c).resp = .undriven := rfl
@[simp] theorem State.resetWith_outcome (p : Params) (c : List Nat) : (State.resetWith p c).outcome = none := rfl
@[simp] theorem State.resetWith_freeIdx (p : Params) (c : List Nat) : (State.resetWith p c).freeIdx = 0 := rfl

/-! ### State.leaderReset: CURSOR and SUM are emptied by a unit 6 and kept otherwise -/

@[simp] theorem State.leaderReset_seq (s : State) (u : Quantum) : (s.leaderReset u).seq = s.seq := by
  unfold State.leaderReset; split <;> rfl
@[simp] theorem State.leaderReset_cursor (s : State) (u : Quantum) :
    (s.leaderReset u).cursor = if u = .u6 then 0#6 else s.cursor := by
  unfold State.leaderReset; split <;> rfl
@[simp] theorem State.leaderReset_sum (s : State) (u : Quantum) :
    (s.leaderReset u).sum = if u = .u6 then 0#6 else s.sum := by
  unfold State.leaderReset; split <;> rfl
@[simp] theorem State.leaderReset_captureEn (s : State) (u : Quantum) : (s.leaderReset u).captureEn = s.captureEn := by
  unfold State.leaderReset; split <;> rfl
@[simp] theorem State.leaderReset_msgReady (s : State) (u : Quantum) : (s.leaderReset u).msgReady = s.msgReady := by
  unfold State.leaderReset; split <;> rfl
@[simp] theorem State.leaderReset_lastTs (s : State) (u : Quantum) : (s.leaderReset u).lastTs = s.lastTs := by
  unfold State.leaderReset; split <;> rfl
@[simp] theorem State.leaderReset_params (s : State) (u : Quantum) : (s.leaderReset u).params = s.params := by
  unfold State.leaderReset; split <;> rfl
@[simp] theorem State.leaderReset_cmds (s : State) (u : Quantum) : (s.leaderReset u).cmds = s.cmds := by
  unfold State.leaderReset; split <;> rfl
@[simp] theorem State.leaderReset_resp (s : State) (u : Quantum) : (s.leaderReset u).resp = s.resp := by
  unfold State.leaderReset; split <;> rfl
@[simp] theorem State.leaderReset_outcome (s : State) (u : Quantum) : (s.leaderReset u).outcome = s.outcome := by
  unfold State.leaderReset; split <;> rfl
@[simp] theorem State.leaderReset_freeIdx (s : State) (u : Quantum) : (s.leaderReset u).freeIdx = s.freeIdx := by
  unfold State.leaderReset; split <;> rfl

/-! ### The two relations of a frame -/

@[simp] theorem SameItems.refl (s : State) : SameItems s s := ⟨rfl, rfl, rfl, rfl, rfl, rfl⟩

theorem SameItems.symm {s t : State} (h : SameItems s t) : SameItems t s :=
  ⟨h.1.symm, h.2.1.symm, h.2.2.1.symm, h.2.2.2.1.symm, h.2.2.2.2.1.symm, h.2.2.2.2.2.symm⟩

theorem SameItems.trans {s t u : State} (h : SameItems s t) (k : SameItems t u) : SameItems s u := by
  obtain ⟨a, b, c, d, e, f⟩ := h
  obtain ⟨a', b', c', d', e', f'⟩ := k
  exact ⟨a'.trans a, b'.trans b, c'.trans c, d'.trans d, e'.trans e, f'.trans f⟩

@[simp] theorem SameOutside.refl (s : State) : SameOutside s s := ⟨rfl, rfl⟩

theorem SameOutside.trans {s t u : State} (h : SameOutside s t) (k : SameOutside t u) : SameOutside s u :=
  ⟨k.1.trans h.1, k.2.trans h.2⟩

theorem sameItems_accept (s : State) : SameItems s s.accept := SameItems.refl s

theorem sameItems_record (s : State) (o : CmdOutcome) : SameItems s (s.record o) := SameItems.refl s

theorem sameItems_respond (s : State) (r : Resp) : SameItems s (s.respond r) := SameItems.refl s

end Sys2Proof.Machine
end

