-- ==== Sys2Proof/Laws/Capture.lean ====
section
/-! SUPPORT. The quantizer and EDGE: what each shared operation can answer (spec/40_edge_capture.md rules R100 to R109). -/

namespace Sys2Proof.Machine

/-! ### The elapsed time -/

/-- The elapsed time is the non-negative remainder of the integer difference (R10, R102). -/
theorem elapsed_eq_emod (clkW ts lastTs : Nat) :
    (elapsed clkW ts lastTs : Int) = ((ts : Int) - lastTs) % (2 ^ clkW : Nat) := by
  have hp : 0 < 2 ^ clkW := Nat.two_pow_pos clkW
  have hl : lastTs % 2 ^ clkW < 2 ^ clkW := Nat.mod_lt _ hp
  unfold elapsed
  rw [Int.natCast_emod, Int.natCast_add, Int.natCast_sub (Nat.le_of_lt hl), Int.natCast_emod,
    ← Int.add_sub_assoc, Int.sub_emod, Int.add_emod_right, Int.emod_emod_of_dvd _ (Int.dvd_refl _), ← Int.sub_emod]

theorem elapsed_lt (clkW ts lastTs : Nat) : elapsed clkW ts lastTs < 2 ^ clkW := Nat.mod_lt _ (Nat.two_pow_pos _)

/-- A well-formed operand reads as itself (R72). -/
@[simp] theorem operandTs_of_lt {p : Params} {ts : Nat} (h : ts < 2 ^ p.clkW) : operandTs p ts = ts :=
  Nat.mod_eq_of_lt h

theorem operandTs_lt (p : Params) (ts : Nat) : operandTs p ts < 2 ^ p.clkW := Nat.mod_lt _ (Nat.two_pow_pos _)

/-! ### The quantizer -/

/-- The thresholds rise (R8). -/
theorem Params.rising_of_wf {p : Params} (h : p.wf = true) :
    0 < p.th1 ∧ p.th1 < p.th2 ∧ p.th2 < p.th3 ∧ p.th3 < p.th4 ∧ p.th4 < 2 ^ p.clkW := by
  simp only [Params.wf, Bool.and_eq_true, decide_eq_true_eq] at h
  exact ⟨h.1.1.1.1.1.2, h.1.1.1.1.2, h.1.1.1.2, h.1.1.2, h.1.2⟩

theorem Params.lastTsInit_lt_of_wf {p : Params} (h : p.wf = true) : p.lastTsInit < 2 ^ p.clkW := by
  simp only [Params.wf, Bool.and_eq_true, decide_eq_true_eq] at h
  exact h.2

@[simp] theorem Quantum.isUnit_bits (u : Quantum) : isUnit u.bits = true := by cases u <;> rfl

theorem Quantum.bits_eq_six {u : Quantum} : u.bits = 6#3 ↔ u = .u6 := by cases u <;> decide

/-- A unit other than 6 is 1, 2 or 3. -/
theorem Quantum.bits_toNat_le_three {u : Quantum} (h : u ≠ .u6) : 1 ≤ u.bits.toNat ∧ u.bits.toNat ≤ 3 := by
  cases u <;> simp_all [Quantum.bits]

/-- A 3-bit value does not change when SUM's width takes it in. -/
theorem entry_setWidth_toNat (v : Entry) : (v.setWidth 6 : Count).toNat = v.toNat := by
  rw [BitVec.toNat_setWidth, Nat.mod_eq_of_lt (by omega)]

/-! ### The append -/

/-- All that an append can do (R108). -/
theorem State.appendEntry_eq_ok {s t : State} {v : Entry} :
    s.appendEntry v = .ok t ↔
      s.cursor.toNat < Config.cap ∧
        t = { s with seq := s.seq.insert s.cursor.toNat v, cursor := s.cursor + 1#6, sum := s.sum + v.setWidth 6 } := by
  unfold State.appendEntry
  constructor
  · intro h
    cases hw : seqWrite s.seq s.cursor.toNat v with
    | error f => simp [hw, bind, Except.bind] at h
    | ok m =>
      obtain ⟨hi, rfl⟩ := seqWrite_eq_ok.1 hw
      simp [hw, bind, Except.bind, pure, Except.pure] at h
      exact ⟨hi, h.symm⟩
  · rintro ⟨hi, rfl⟩
    simp [seqWrite_of_lt _ v hi, bind, Except.bind, pure, Except.pure]

/-- All that an append and its completion test can do (R108, R109). -/
theorem appendUnit_eq_ok {s t : State} {u : Quantum} {e : Nat} :
    appendUnit s u e = .ok t ↔ ∃ s', s.appendEntry u.bits = .ok s' ∧ t = s'.settleAppend u e := by
  unfold appendUnit
  cases h : s.appendEntry u.bits with
  | error f => simp [bind, Except.bind]
  | ok s' =>
    simp only [bind, Except.bind, pure, Except.pure, Except.ok.injEq, exists_eq_left']
    exact eq_comm

/-! ### EDGE -/

/-- All that an admitted EDGE can do: a noise reset, an overflow reset, or an append (R105 to R109). -/
theorem admitEdge_eq_ok {s t : State} {ts : Nat} (h : admitEdge s ts = .ok t) :
    (classify s.params (elapsed s.params.clkW ts s.lastTs) = none ∧
        t = (s.setLastTs ts).emptySeq.record (.noiseReset (elapsed s.params.clkW ts s.lastTs))) ∨
      ∃ u, classify s.params (elapsed s.params.clkW ts s.lastTs) = some u ∧
        ((((s.setLastTs ts).leaderReset u).cursor.toNat = Config.cap ∧
            t = ((s.setLastTs ts).leaderReset u).emptySeq.record
              (.overflowReset (elapsed s.params.clkW ts s.lastTs))) ∨
          (((s.setLastTs ts).leaderReset u).cursor.toNat ≠ Config.cap ∧
            ∃ s', ((s.setLastTs ts).leaderReset u).appendEntry u.bits = .ok s' ∧
              t = s'.settleAppend u (elapsed s.params.clkW ts s.lastTs))) := by
  unfold admitEdge at h
  simp only [State.setLastTs_params] at h
  split at h
  · rename_i hc
    exact .inl ⟨hc, by simpa [eq_comm] using h⟩
  · rename_i u hc
    refine .inr ⟨u, hc, ?_⟩
    split at h
    · rename_i hcap
      exact .inl ⟨hcap, by simpa [eq_comm] using h⟩
    · rename_i hcap
      exact .inr ⟨hcap, appendUnit_eq_ok.1 h⟩

/-- EDGE at the two positions of the capture gate (R104). -/
theorem execEdge_of_disabled {s : State} {ts : Nat} (h : s.captureEn = false) :
    execEdge ts s = .next (s.accept.record (.ignored (operandTs s.params ts))) := by
  simp [execEdge, h]

theorem execEdge_of_enabled {s : State} {ts : Nat} (h : s.captureEn = true) :
    execEdge ts s =
      match admitEdge s.accept (operandTs s.params ts) with
      | .ok t => .next t
      | .error f => .fault f := by
  cases ha : admitEdge s.accept (operandTs s.params ts) <;>
    simp [execEdge, State.accept_captureEn, State.accept_params, h, ha]

end Sys2Proof.Machine
end

