-- ==== Sys2Proof/Laws/Decoder.lean ====
section
/-! SUPPORT. DECODE and the polls: what each shared operation can answer (spec/41_decoder.md rules R130 to R136). -/

namespace Sys2Proof.Machine

/-- From a bind that answers, both its parts. -/
theorem except_bind_eq_ok {α β : Type} {x : Except Fault α} {f : α → Except Fault β} {b : β} :
    (x >>= f) = .ok b ↔ ∃ a, x = .ok a ∧ f a = .ok b := by
  cases x <;> simp [bind, Except.bind]

/-! ### The header -/

/-- All that the header check can answer (R133). -/
theorem headerOk_eq_ok {m : Memory} {b : Bool} :
    headerOk m = .ok b ↔
      ∃ x y z, m.entry 0 = some x ∧ m.entry 1 = some y ∧ m.entry 2 = some z ∧
        b = decide ((x, y, z) = Config.hdr) := by
  unfold headerOk
  simp only [except_bind_eq_ok, seqRead_eq_ok, pure, Except.pure, Except.ok.injEq]
  constructor
  · rintro ⟨x, ⟨-, hx⟩, y, ⟨-, hy⟩, z, ⟨-, hz⟩, rfl⟩
    exact ⟨x, y, z, hx, hy, hz, rfl⟩
  · rintro ⟨x, y, z, hx, hy, hz, rfl⟩
    exact ⟨x, ⟨by decide, hx⟩, y, ⟨by decide, hy⟩, z, ⟨by decide, hz⟩, rfl⟩

/-- The check holds exactly where the first three entries are 6, 2, 1 (R133). -/
theorem headerOk_eq_true {m : Memory} : headerOk m = .ok true ↔ HeaderHolds m := by
  rw [headerOk_eq_ok]
  constructor
  · rintro ⟨x, y, z, hx, hy, hz, hb⟩
    simp only [Config.hdr, eq_comm (a := true), decide_eq_true_eq, Prod.mk.injEq] at hb
    obtain ⟨rfl, rfl, rfl⟩ := hb
    exact ⟨hx, hy, hz⟩
  · rintro ⟨hx, hy, hz⟩
    exact ⟨_, _, _, hx, hy, hz, by simp [Config.hdr]⟩

/-! ### The two loops, one turn at a time -/

/-- One turn of COMPENSATE's walk (R134). -/
theorem findToggle_succ (m : Memory) (fuel idx off : Nat) :
    findToggle m (fuel + 1) idx off =
      if off < Config.toggleOff ∧ idx < Config.cap then
        (seqRead m idx).bind fun v =>
          if off + v.toNat = Config.toggleOff then .ok (some idx) else findToggle m fuel (idx + 1) (off + v.toNat)
      else .ok none := rfl

/-- One turn of DEMODULATE's loop (R135). -/
theorem demodLoop_succ (m : Memory) (fuel : Nat) (w : Walk) :
    demodLoop m (fuel + 1) w =
      if w.off < Config.demodStop ∧ w.idx < Config.cap then
        (seqRead m w.idx).bind fun v => demodLoop m fuel (w.turn v)
      else .ok w := rfl

/-- All that the walk can answer from an offset that is the sum of the entries before it (R134): the entry at which the
offset is exactly 18, in range. -/
theorem findToggle_eq_some {m : Memory} {fuel idx j : Nat}
    (h : findToggle m fuel idx (prefixSum m idx) = .ok (some j)) :
    idx ≤ j ∧ j < Config.cap ∧ prefixSum m j < Config.toggleOff ∧ prefixSum m (j + 1) = Config.toggleOff := by
  induction fuel generalizing idx with
  | zero => simp [findToggle] at h
  | succ fuel ih =>
    rw [findToggle_succ] at h
    split at h
    · rename_i hg
      cases hr : seqRead m idx with
      | error f => simp [hr, Except.bind] at h
      | ok v =>
        have hs : prefixSum m idx + v.toNat = prefixSum m (idx + 1) := by
          rw [prefixSum_succ, entryUnits_of_entry (seqRead_eq_ok.1 hr).2]
        simp only [hr, Except.bind, hs] at h
        split at h
        · simp only [Except.ok.injEq, Option.some.injEq] at h
          subst h
          exact ⟨le_refl _, hg.2, hg.1, by assumption⟩
        · obtain ⟨h1, h2⟩ := ih h
          exact ⟨by omega, h2⟩
    · simp at h

/-- The toggle entry ends at offset 18 exactly, and the entry before it does not reach 18 (R134). -/
theorem toggleEntry_eq_some {m : Memory} {j : Nat} (h : toggleEntry m = .ok (some j)) :
    j < Config.cap ∧ prefixSum m j < Config.toggleOff ∧ prefixSum m (j + 1) = Config.toggleOff :=
  (findToggle_eq_some (idx := 0) h).2

/-- The offsets rise strictly over entries that hold at least one unit. -/
theorem prefixSum_lt_of_units {m : Memory} {n a b : Nat} (hu : ∀ k < n, 1 ≤ entryUnits m k) (hab : a < b) (hb : b ≤ n) :
    prefixSum m a < prefixSum m b := by
  have h1 := prefixSum_mono m (show a + 1 ≤ b by omega)
  have h2 := hu a (by omega)
  rw [prefixSum_succ] at h1
  omega

/-- The walk answers where the first `n` entries hold units and their sum passes 18: the entry that ends at 18, or none
where no entry ends there (R134). -/
theorem findToggle_of_units {m : Memory} {n fuel idx : Nat} (hn : n ≤ Config.cap)
    (hu : ∀ k < n, ∃ v, m.entry k = some v ∧ 1 ≤ v.toNat) (hs : Config.toggleOff < prefixSum m n)
    (hoff : prefixSum m idx < Config.toggleOff) (hf : n ≤ idx + fuel) :
    (∃ j, findToggle m fuel idx (prefixSum m idx) = .ok (some j) ∧ j + 1 < n ∧
        prefixSum m (j + 1) = Config.toggleOff) ∨
      (findToggle m fuel idx (prefixSum m idx) = .ok none ∧ ∀ j, idx ≤ j → prefixSum m (j + 1) ≠ Config.toggleOff) := by
  have hin : ∀ i, prefixSum m i ≤ Config.toggleOff → i < n := by
    intro i hi
    by_contra hc
    have := prefixSum_mono m (show n ≤ i by omega)
    omega
  induction fuel generalizing idx with
  | zero => have := hin idx (by omega); omega
  | succ fuel ih =>
    have hidx := hin idx (by omega)
    obtain ⟨v, hv, hv1⟩ := hu idx hidx
    have hsum : prefixSum m idx + v.toNat = prefixSum m (idx + 1) := by
      rw [prefixSum_succ, entryUnits_of_entry hv]
    rw [findToggle_succ, if_pos ⟨hoff, by omega⟩, seqRead_of_entry (by omega) hv]
    simp only [Except.bind, hsum]
    by_cases he : prefixSum m (idx + 1) = Config.toggleOff
    · rw [if_pos he]
      exact .inl ⟨idx, rfl, hin _ (by omega), he⟩
    · rw [if_neg he]
      by_cases hlt : prefixSum m (idx + 1) < Config.toggleOff
      · rcases ih hlt (by omega) with ⟨j, h1, h2, h3⟩ | ⟨h1, h2⟩
        · exact .inl ⟨j, h1, h2, h3⟩
        · refine .inr ⟨h1, fun j hj => ?_⟩
          rcases Nat.lt_or_ge idx j with h | h
          · exact h2 j h
          · rw [show j = idx by omega]; exact he
      · have hgt : Config.toggleOff < prefixSum m (idx + 1) := by omega
        refine .inr ⟨?_, fun j hj => ?_⟩
        · cases fuel with
          | zero => rfl
          | succ fuel => rw [findToggle_succ, if_neg (by omega)]
        · have := prefixSum_mono m (show idx + 1 ≤ j + 1 by omega)
          omega

/-- DEMODULATE's loop answers where the entries it may meet hold values and reach 49: it ends at or below entry `n`, at
the first offset that is 49 or more, and OFF is the sum of what it passed (R135). -/
theorem demodLoop_reaches_stop {m : Memory} {n fuel : Nat} {w : Walk} (hn : n ≤ Config.cap)
    (hv : ∀ k < n, ∃ v, m.entry k = some v) (hw : w.idx ≤ n) (hf : n ≤ w.idx + fuel)
    (hs : Config.demodStop ≤ w.off + (prefixSum m n - prefixSum m w.idx)) :
    ∃ w', demodLoop m fuel w = .ok w' ∧ w.idx ≤ w'.idx ∧ w'.idx ≤ n ∧ Config.demodStop ≤ w'.off ∧
      w'.off = w.off + (prefixSum m w'.idx - prefixSum m w.idx) ∧
      ∀ k, w.idx ≤ k → k < w'.idx → w.off + (prefixSum m k - prefixSum m w.idx) < Config.demodStop := by
  induction fuel generalizing w with
  | zero =>
    have hi : w.idx = n := by omega
    rw [hi, Nat.sub_self] at hs
    exact ⟨w, rfl, le_refl _, hw, by omega, by omega, fun k h1 h2 => by omega⟩
  | succ fuel ih =>
    rw [demodLoop_succ]
    by_cases hoff : w.off < Config.demodStop
    · have hlt : w.idx < n := by
        rcases Nat.lt_or_ge w.idx n with h | h
        · exact h
        · rw [show w.idx = n by omega, Nat.sub_self] at hs; omega
      obtain ⟨v, hval⟩ := hv w.idx hlt
      have hsum : prefixSum m (w.idx + 1) = prefixSum m w.idx + v.toNat := by
        rw [prefixSum_succ, entryUnits_of_entry hval]
      have hm1 := prefixSum_mono m (show w.idx + 1 ≤ n by omega)
      rw [if_pos ⟨hoff, by omega⟩, seqRead_of_entry (by omega) hval]
      simp only [Except.bind]
      have hti : (w.turn v).idx = w.idx + 1 := rfl
      have hto : (w.turn v).off = w.off + v.toNat := rfl
      obtain ⟨w', h1, h2, h3, h4, h5, h6⟩ := ih (w := w.turn v) (by omega) (by omega) (by rw [hti, hto]; omega)
      rw [hti] at h2 h5 h6
      rw [hto] at h5 h6
      have hm2 := prefixSum_mono m h2
      refine ⟨w', h1, by omega, h3, h4, by omega, fun k hk1 hk2 => ?_⟩
      rcases Nat.lt_or_ge w.idx k with h | h
      · have := h6 k h hk2
        have := prefixSum_mono m (show w.idx + 1 ≤ k by omega)
        omega
      · rw [show k = w.idx by omega, Nat.sub_self]; omega
    · rw [if_neg (by omega)]
      exact ⟨w, rfl, le_refl _, hw, by omega, by omega, fun k h1 h2 => by omega⟩

/-- All that the compensation can do: nothing, or two decrements (R134). -/
theorem compensate_eq_ok {m t : Memory} :
    compensate m = .ok t ↔
      (toggleEntry m = .ok none ∧ t = m) ∨
        ∃ j m', toggleEntry m = .ok (some j) ∧ seqDecrement m j = .ok m' ∧ seqDecrement m' (j + 1) = .ok t := by
  unfold compensate
  rw [except_bind_eq_ok]
  constructor
  · rintro ⟨o, ho, h⟩
    cases o with
    | none => exact .inl ⟨ho, by simpa [pure, Except.pure, eq_comm] using h⟩
    | some j =>
      obtain ⟨m', h1, h2⟩ := except_bind_eq_ok.1 h
      exact .inr ⟨j, m', ho, h1, h2⟩
  · rintro (⟨ho, rfl⟩ | ⟨j, m', ho, h1, h2⟩)
    · exact ⟨none, ho, rfl⟩
    · exact ⟨some j, ho, except_bind_eq_ok.2 ⟨m', h1, h2⟩⟩

/-- The compensation keeps the canonical form of SEQ. -/
theorem compensate_wf {m t : Memory} (h : compensate m = .ok t) (hm : m.wf = true) : t.wf = true := by
  rcases compensate_eq_ok.1 h with ⟨-, rfl⟩ | ⟨j, m', -, h1, h2⟩
  · exact hm
  · obtain ⟨i1, v1, -, -, rfl⟩ := seqDecrement_eq_ok.1 h1
    obtain ⟨i2, v2, -, -, rfl⟩ := seqDecrement_eq_ok.1 h2
    exact Memory.wf_insert _ (Memory.wf_insert _ hm i1) i2

/-- The compensation leaves every entry but the toggle entry and the one after it alone (R52, R134). -/
theorem compensate_entry {m t : Memory} (h : compensate m = .ok t) {a : Nat}
    (ha : ∀ j, toggleEntry m = .ok (some j) → a ≠ j ∧ a ≠ j + 1) : t.entry a = m.entry a := by
  rcases compensate_eq_ok.1 h with ⟨-, rfl⟩ | ⟨j, m', hj, h1, h2⟩
  · rfl
  · obtain ⟨-, v1, -, -, rfl⟩ := seqDecrement_eq_ok.1 h1
    obtain ⟨-, v2, -, -, rfl⟩ := seqDecrement_eq_ok.1 h2
    rw [Memory.entry_insert_of_ne _ _ (ha j hj).2, Memory.entry_insert_of_ne _ _ (ha j hj).1]

/-! ### DECODE and the polls -/

/-- All that DECODE can do: a header failure, or a code (R132, R133, R136). -/
theorem decodeMsg_eq_ok {s t : State} {r : Option Code} :
    decodeMsg s = .ok (t, r) ↔
      (headerOk s.seq = .ok false ∧ t = s.consume.rearm.record .headerFail ∧ r = none) ∨
        ∃ m w, headerOk s.seq = .ok true ∧ compensate s.seq = .ok m ∧ demodulate m = .ok w ∧
          t = ({ s.consume with seq := m } : State).rearm.record (.decoded w.code) ∧ r = some w.code := by
  unfold decodeMsg
  simp only [except_bind_eq_ok, State.consume_seq]
  constructor
  · rintro ⟨b, hb, h⟩
    cases b with
    | false =>
      simp only [pure, Except.pure, Bool.false_eq_true, if_false, Except.ok.injEq, Prod.mk.injEq] at h
      exact .inl ⟨hb, h.1.symm, h.2.symm⟩
    | true =>
      simp only [if_true, except_bind_eq_ok, pure, Except.pure, Except.ok.injEq, Prod.mk.injEq] at h
      obtain ⟨m, hm, w, hw, h1, h2⟩ := h
      exact .inr ⟨m, w, hb, hm, hw, h1.symm, h2.symm⟩
  · rintro (⟨hb, rfl, rfl⟩ | ⟨m, w, hb, hm, hw, rfl, rfl⟩)
    · exact ⟨false, hb, rfl⟩
    · refine ⟨true, hb, ?_⟩
      simp only [if_true, except_bind_eq_ok]
      exact ⟨m, hm, w, hw, rfl⟩

/-- All that a poll's shared part can do: nothing without a message, else DECODE (R130, R131). -/
theorem pollMsg_eq_ok {s t : State} {r : Option Code} :
    pollMsg s = .ok (t, r) ↔
      (s.msgReady = false ∧ t = s.record .noMessage ∧ r = none) ∨ (s.msgReady = true ∧ decodeMsg s = .ok (t, r)) := by
  unfold pollMsg
  cases s.msgReady <;> simp [eq_comm]

/-- DECODE leaves LAST_TS, the parameters, the port and the free counter alone, empties the registers and re-arms. -/
theorem decodeMsg_frame {s t : State} {r : Option Code} (h : decodeMsg s = .ok (t, r)) :
    t.cursor = 0#6 ∧ t.sum = 0#6 ∧ t.msgReady = false ∧ t.captureEn = true ∧ t.lastTs = s.lastTs ∧
      t.params = s.params ∧ t.cmds = s.cmds ∧ t.freeIdx = s.freeIdx := by
  rcases decodeMsg_eq_ok.1 h with ⟨-, rfl, -⟩ | ⟨m, w, -, -, -, rfl, -⟩ <;>
    exact ⟨rfl, rfl, rfl, rfl, rfl, rfl, rfl, rfl⟩

/-- POLL_CODE answers a next state exactly where the shared part answers. -/
theorem execPollCode_eq_next {s t : State} :
    execPollCode s = .next t ↔ ∃ t' r, pollMsg s.accept = .ok (t', r) ∧ t = t'.respond (.code r) := by
  unfold execPollCode
  cases h : pollMsg s.accept with
  | error f => simp
  | ok x => obtain ⟨t', r⟩ := x; simp [eq_comm]

/-- POLL_FIELDS answers a next state exactly where the shared part answers. -/
theorem execPollFields_eq_next {s t : State} :
    execPollFields s = .next t ↔
      ∃ t' r, pollMsg s.accept = .ok (t', r) ∧ t = t'.respond (.fields (r.map fieldsOf)) := by
  unfold execPollFields
  cases h : pollMsg s.accept with
  | error f => simp
  | ok x => obtain ⟨t', r⟩ := x; simp [eq_comm]

end Sys2Proof.Machine
end

