-- ==== Sys2Proof/Laws/Encoding.lean ====
section
/-! SUPPORT. The decoder and the encoder (spec/30_encoding.md rules R71 to R74), field by field. -/

namespace Sys2Proof

theorem opOf_lt (i : Instr) : opOf i < 5 := by cases i <;> simp [opOf]

theorem opField_encode {clkW : Nat} {i : Instr} (h : tsOf i < 2 ^ clkW) : opField clkW (encode clkW i) = opOf i := by
  unfold opField encode
  rw [Nat.mul_comm, Nat.mul_add_div (Nat.two_pow_pos _), Nat.div_eq_of_lt h, Nat.add_zero]

theorem tsField_encode {clkW : Nat} {i : Instr} (h : tsOf i < 2 ^ clkW) : tsField clkW (encode clkW i) = tsOf i := by
  unfold tsField encode
  rw [Nat.mul_add_mod_self_right, Nat.mod_eq_of_lt h]

/-- A well-formed command's `ts` field fits CLK_W bits. -/
theorem tsOf_lt_of_wellFormed {clkW : Nat} {i : Instr} (h : WellFormed clkW i = true) : tsOf i < 2 ^ clkW := by
  cases i <;> simp_all [WellFormed, tsOf]

/-- What the decoder can answer: one line a command, and the two errors. -/
theorem decode_eq_ok_iff {clkW word : Nat} {i : Instr} :
    decode clkW word = .ok i ↔
      word < 2 ^ (clkW + 3) ∧ opField clkW word = opOf i ∧ (∀ ts, i = .edge ts → ts = tsField clkW word) := by
  unfold decode
  split
  · rename_i hw
    simp only [hw, true_and]
    generalize opField clkW word = op
    split <;> cases i <;> (simp_all [opOf]; try omega)
  · simp_all

theorem decode_eq_reservedOp {clkW word op : Nat} :
    decode clkW word = .error (.reservedOp op) ↔
      word < 2 ^ (clkW + 3) ∧ op = opField clkW word ∧ 5 ≤ op := by
  unfold decode
  split
  · split <;> simp_all
    rename_i h0 h1 h2 h3 h4
    constructor
    · rintro rfl; exact ⟨rfl, by omega⟩
    · rintro ⟨rfl, -⟩; rfl
  · simp_all

theorem decode_eq_wordTooWide {clkW word : Nat} :
    decode clkW word = .error .wordTooWide ↔ 2 ^ (clkW + 3) ≤ word := by
  unfold decode
  split
  · split <;> simp_all
  · simp_all

end Sys2Proof
end

