-- ==== Sys2Proof/Laws/Invariant.lean ====
section
/-! SUPPORT. The invariant of spec/10_state.md rule R32 in the forms its users need. -/

namespace Sys2Proof.Machine

/-- The check of one entry behind I3 and I4, as a Bool. -/
def entryOk (m : Memory) (k : Nat) : Bool :=
  match m.entry k with
  | some v => isUnit v && (decide (v ≠ 6#3) || decide (k = 0))
  | none => false

theorem entryOk_iff {m : Memory} {k : Nat} :
    entryOk m k = true ↔ ∃ v, m.entry k = some v ∧ isUnit v = true ∧ (v = 6#3 → k = 0) := by
  unfold entryOk
  cases m.entry k with
  | none => simp
  | some v =>
    simp only [Bool.and_eq_true, Bool.or_eq_true, decide_eq_true_eq, Option.some.injEq, exists_eq_left']
    tauto

theorem entriesOk_of_all {m : Memory} {n : Nat} (h : (List.range n).all (entryOk m) = true) :
    ∀ k < n, ∃ v, m.entry k = some v ∧ isUnit v = true ∧ (v = 6#3 → k = 0) := by
  intro k hk
  exact entryOk_iff.1 (List.all_eq_true.1 h k (List.mem_range.2 hk))

/-- A unit is 1, 2, 3 or 6, so at least 1. -/
theorem isUnit_iff {v : Entry} : isUnit v = true ↔ v = 1#3 ∨ v = 2#3 ∨ v = 3#3 ∨ v = 6#3 := by
  unfold isUnit
  simp only [Bool.or_eq_true, decide_eq_true_eq]
  tauto

theorem one_le_toNat_of_isUnit {v : Entry} (h : isUnit v = true) : 1 ≤ v.toNat := by
  rcases isUnit_iff.1 h with rfl | rfl | rfl | rfl <;> decide

/-- Every entry below CURSOR holds at least one unit. -/
theorem State.Inv.units {s : State} (h : s.Inv) : ∀ k < s.cursor.toNat, ∃ v, s.seq.entry k = some v ∧ 1 ≤ v.toNat := by
  intro k hk
  obtain ⟨v, h1, h2, -⟩ := h.entries k hk
  exact ⟨v, h1, one_le_toNat_of_isUnit h2⟩

/-- The three flag facts of a state that is capturing, and of one that holds a message (I1). -/
theorem State.Inv.captureEn_of_not_ready {s : State} (h : s.Inv) (hr : s.msgReady = false) : s.captureEn = true := by
  rw [h.flags, hr]; rfl

theorem State.Inv.not_captureEn_of_ready {s : State} (h : s.Inv) (hr : s.msgReady = true) : s.captureEn = false := by
  rw [h.flags, hr]; rfl

/-- The offset at the end of a buffered message is its SUM, at least 51 (I3, I5). -/
theorem State.Inv.message_length {s : State} (h : s.Inv) (hr : s.msgReady = true) :
    51 ≤ prefixSum s.seq s.cursor.toNat ∧ prefixSum s.seq s.cursor.toNat ≤ 53 ∧ 16 ≤ s.cursor.toNat := by
  obtain ⟨h1, h2, h3⟩ := h.sum_complete hr
  rw [h.sum_eq] at h1 h2
  exact ⟨h1, h2, h3⟩

end Sys2Proof.Machine
end

