-- ==== Sys2Proof/Laws/Listing.lean ====
section
/-! SUPPORT. What the lines of a listing stand for (spec/30_encoding.md rule R83): once each for the start of a listing and
for lines that are no EDGE. -/

namespace Sys2Proof.Machine

/-- The command of a line that is no EDGE, and none for an EDGE line. -/
def plainCommand : ListingLine → Option Instr
  | .nop => some .nop
  | .pollCode => some .pollCode
  | .pollFields => some .pollFields
  | .reset => some .reset
  | .edgeAt _ => none
  | .edgePlus _ => none

theorem expandLines_plain_cons {clkW : Nat} {prev : Option Nat} {l : ListingLine} {i : Instr} {ls : List ListingLine}
    (h : plainCommand l = some i) :
    expandLines clkW prev (l :: ls) = (expandLines clkW prev ls).map (i :: ·) := by
  cases l <;> cases h <;> simp only [expandLines] <;> cases expandLines clkW prev ls <;> rfl

theorem expandLines_edgeAt_cons {clkW t : Nat} {prev : Option Nat} {ls : List ListingLine} (h : t < 2 ^ clkW) :
    expandLines clkW prev (.edgeAt t :: ls) = (expandLines clkW (some t) ls).map (.edge t :: ·) := by
  simp only [expandLines, h, if_true]
  cases expandLines clkW (some t) ls <;> rfl

theorem expandLines_edgePlus_cons {clkW t d : Nat} {ls : List ListingLine} (h : d < 2 ^ clkW) :
    expandLines clkW (some t) (.edgePlus d :: ls) =
      expandLines clkW (some t) (.edgeAt ((t + d) % 2 ^ clkW) :: ls) := by
  simp [expandLines, h, Nat.mod_lt _ (Nat.two_pow_pos clkW)]

/-- Lines that are no EDGE give the same commands wherever they stand, and leave t_prev to the lines after them. -/
theorem expandLines_plain_append {clkW : Nat} {prev : Option Nat} {between ls : List ListingLine}
    (h : ∀ l ∈ between, (plainCommand l).isSome) :
    expandLines clkW prev (between ++ ls) = (expandLines clkW prev ls).map (between.filterMap plainCommand ++ ·) := by
  induction between with
  | nil => simp only [List.nil_append, List.filterMap_nil]; cases expandLines clkW prev ls <;> rfl
  | cons l between ih =>
    obtain ⟨i, hi⟩ := Option.isSome_iff_exists.mp (h l (by simp))
    rw [List.cons_append, expandLines_plain_cons hi, ih fun k hk => h k (by simp [hk]), List.filterMap_cons_some hi]
    cases expandLines clkW prev ls <;> rfl

/-- The start of a listing reads no line after it: it is refused by itself, or it gives its commands and the `ts` of its
nearest EDGE line to what follows. -/
theorem expandLines_append_cases (clkW : Nat) (prev : Option Nat) (lead : List ListingLine) :
    (∃ e, ∀ ls, expandLines clkW prev (lead ++ ls) = .error e) ∨
      ∃ is last, ∀ ls, expandLines clkW prev (lead ++ ls) = (expandLines clkW last ls).map (is ++ ·) := by
  induction lead generalizing prev with
  | nil => exact .inr ⟨[], prev, fun ls => by
      simp only [List.nil_append]; cases expandLines clkW prev ls <;> rfl⟩
  | cons l lead ih =>
    have step : ∀ {i : Instr} {p : Option Nat},
        (∀ ls, expandLines clkW prev (l :: ls) = (expandLines clkW p ls).map (i :: ·)) →
        (∃ e, ∀ ls, expandLines clkW prev (l :: lead ++ ls) = .error e) ∨
          ∃ is last, ∀ ls, expandLines clkW prev (l :: lead ++ ls) = (expandLines clkW last ls).map (is ++ ·) := by
      intro i p hl
      rcases ih p with ⟨e, he⟩ | ⟨is, last, hs⟩
      · exact .inl ⟨e, fun ls => by rw [List.cons_append, hl, he]; rfl⟩
      · refine .inr ⟨i :: is, last, fun ls => ?_⟩
        rw [List.cons_append, hl, hs]
        cases expandLines clkW last ls <;> rfl
    cases l with
    | nop | pollCode | pollFields | reset => exact step fun ls => expandLines_plain_cons rfl
    | edgeAt t =>
      by_cases ht : t < 2 ^ clkW
      · exact step fun ls => expandLines_edgeAt_cons ht
      · exact .inl ⟨.operandTooWide, fun ls => by simp only [List.cons_append, expandLines, ht, if_false]; rfl⟩
    | edgePlus d =>
      cases prev with
      | none => exact .inl ⟨.relativeFirstEdge, fun ls => by simp only [List.cons_append, expandLines]; rfl⟩
      | some t =>
        by_cases hd : d < 2 ^ clkW
        · exact step fun ls => by
            rw [expandLines_edgePlus_cons hd, expandLines_edgeAt_cons (Nat.mod_lt _ (Nat.two_pow_pos clkW))]
        · exact .inl ⟨.operandTooWide, fun ls => by simp only [List.cons_append, expandLines, hd, if_false]; rfl⟩

end Sys2Proof.Machine
end

