-- ==== Sys2Proof/Laws/PerInstr.lean ====
section
/-! SUPPORT. The family EncodeFits: a well-formed command's word fits the CLK_W + 3 lines of the port and carries the
command's op and `ts` in their fields (spec/30_encoding.md rules R71, R73). -/

namespace Sys2Proof.Laws.EncodeFits

/-- What the family says of one command. -/
def Statement (i : Instr) : Prop :=
  ∀ clkW, WellFormed clkW i = true →
    encode clkW i < 2 ^ (clkW + 3) ∧ opField clkW (encode clkW i) = opOf i ∧ tsField clkW (encode clkW i) = tsOf i

theorem of_wellFormed (i : Instr) : Statement i := by
  intro clkW h
  have ht := tsOf_lt_of_wellFormed h
  refine ⟨?_, opField_encode ht, tsField_encode ht⟩
  have ho := opOf_lt i
  have : (opOf i + 1) * 2 ^ clkW ≤ 8 * 2 ^ clkW := Nat.mul_le_mul_right _ (by omega)
  rw [encode, Nat.pow_add, Nat.mul_comm (2 ^ clkW)]
  rw [Nat.add_mul] at this
  omega

theorem nop : Statement .nop := of_wellFormed _
theorem edge (ts : Nat) : Statement (.edge ts) := of_wellFormed _
theorem pollCode : Statement .pollCode := of_wellFormed _
theorem pollFields : Statement .pollFields := of_wellFormed _
theorem reset : Statement .reset := of_wellFormed _

end Sys2Proof.Laws.EncodeFits
end

