-- ==== Sys2Proof/Laws/Step.lean ====
section
/-! SUPPORT. One step, and what no command touches (spec/20_memory.md rule R60). -/

namespace Sys2Proof.Machine

/-- A step on a word at the port: its command, or a refusal. -/
theorem step_of_cons {s : State} {w : Nat} {rest : List Nat} (h : s.cmds = w :: rest) :
    step s =
      match decode s.params.clkW w with
      | .ok i => exec i { s with cmds := rest }
      | .error e => .refused (refusalOf e) := by
  cases hd : decode s.params.clkW w <;> simp [step, State.fetch, h, hd]

/-- A step with no word at the port (log 4). -/
theorem step_of_nil {s : State} (h : s.cmds = []) : step s = .next s.accept := by
  simp [step, State.fetch, h, State.idle]

/-- A step that answers either waits or runs the decoded command. -/
theorem step_eq_next {s t : State} (h : step s = .next t) :
    (s.cmds = [] ∧ t = s.accept) ∨
      ∃ w rest i, s.cmds = w :: rest ∧ decode s.params.clkW w = .ok i ∧ exec i { s with cmds := rest } = .next t := by
  cases hc : s.cmds with
  | nil =>
    rw [step_of_nil hc] at h
    exact .inl ⟨rfl, by simpa [eq_comm] using h⟩
  | cons w rest =>
    rw [step_of_cons hc] at h
    cases hd : decode s.params.clkW w with
    | error e => simp [hd] at h
    | ok i => exact .inr ⟨w, rest, i, rfl, hd, by simpa [hd] using h⟩

/-- An admitted EDGE writes neither the parameters nor the port. -/
theorem admitEdge_outside {s t : State} {ts : Nat} (h : admitEdge s ts = .ok t) :
    SameOutside s t ∧ t.resp = s.resp ∧ t.freeIdx = s.freeIdx := by
  rcases admitEdge_eq_ok h with ⟨-, rfl⟩ | ⟨u, -, ⟨-, rfl⟩ | ⟨-, s', hs, rfl⟩⟩
  · exact ⟨⟨rfl, rfl⟩, rfl, rfl⟩
  · exact ⟨⟨by simp, by simp⟩, by simp, by simp⟩
  · obtain ⟨-, rfl⟩ := State.appendEntry_eq_ok.1 hs
    unfold State.settleAppend
    split
    · exact ⟨⟨by simp, by simp⟩, by simp, by simp⟩
    · split <;> exact ⟨⟨by simp, by simp⟩, by simp, by simp⟩

/-- No command writes the parameters or the words not yet accepted; each advances the free counter by one. -/
theorem exec_outside {i : Instr} {s t : State} (h : exec i s = .next t) :
    SameOutside s t ∧ t.freeIdx = s.freeIdx + 1 := by
  have hpoll : ∀ {t' : State} {r : Option Code}, pollMsg s.accept = .ok (t', r) →
      SameOutside s t' ∧ t'.freeIdx = s.freeIdx + 1 := by
    intro t' r hp
    rcases pollMsg_eq_ok.1 hp with ⟨-, rfl, -⟩ | ⟨-, hd⟩
    · exact ⟨⟨rfl, rfl⟩, rfl⟩
    · obtain ⟨-, -, -, -, -, h1, h2, h3⟩ := decodeMsg_frame hd
      exact ⟨⟨h1, h2⟩, h3⟩
  cases i with
  | nop =>
    simp only [exec, execNop, Host.Outcome.next.injEq] at h
    subst h; exact ⟨⟨rfl, rfl⟩, rfl⟩
  | edge ts =>
    simp only [exec] at h
    cases hc : s.captureEn with
    | false =>
      rw [execEdge_of_disabled hc, Host.Outcome.next.injEq] at h
      subst h; exact ⟨⟨rfl, rfl⟩, rfl⟩
    | true =>
      rw [execEdge_of_enabled hc] at h
      cases ha : admitEdge s.accept (operandTs s.params ts) with
      | error f => simp [ha] at h
      | ok t' =>
        simp only [ha, Host.Outcome.next.injEq] at h
        subst h
        obtain ⟨⟨h1, h2⟩, -, h3⟩ := admitEdge_outside ha
        exact ⟨⟨h1, h2⟩, h3⟩
  | pollCode =>
    obtain ⟨t', r, hp, rfl⟩ := execPollCode_eq_next.1 h
    obtain ⟨⟨h1, h2⟩, h3⟩ := hpoll hp
    exact ⟨⟨h1, h2⟩, h3⟩
  | pollFields =>
    obtain ⟨t', r, hp, rfl⟩ := execPollFields_eq_next.1 h
    obtain ⟨⟨h1, h2⟩, h3⟩ := hpoll hp
    exact ⟨⟨h1, h2⟩, h3⟩
  | reset =>
    simp only [exec, execReset, Host.Outcome.next.injEq] at h
    subst h; exact ⟨⟨rfl, rfl⟩, rfl⟩

end Sys2Proof.Machine
end

