-- ==== Sys2Proof/Tests/Slice0.lean ====
section
/-! SUPPORT. The model's own tests. Expected values come from spec/95_test_vectors.md, whose vectors each test names, and
from the encoding of spec/30_encoding.md rule R71 written out. A theorem named witness_… shows a state and operands that
meet all the hypotheses of the statement it names. -/

namespace Sys2Proof.Machine.Tests

/-! ### Helpers -/

/-- SEQ holding the given units from entry 0 up. -/
def seqOf (us : List Nat) : Memory := us.zipIdx.map fun x => (x.2, BitVec.ofNat 3 x.1)

/-- A state as the vectors write it: (CURSOR, SUM, MSG_READY, CAPTURE_EN, LAST_TS), at the default parameters. -/
def at' (seq : Memory) (cursor sum : Nat) (msgReady : Bool) (lastTs : Nat) : State :=
  { State.resetWith Params.default [] with
    seq := seq, cursor := BitVec.ofNat 6 cursor, sum := BitVec.ofNat 6 sum
    msgReady := msgReady, captureEn := !msgReady, lastTs := lastTs }

/-- The registers a step leaves, as the vectors write them. -/
def regs : Host.Outcome State Fault Refusal → Option (Nat × Nat × Bool × Bool × Nat)
  | .next t => some (t.cursor.toNat, t.sum.toNat, t.msgReady, t.captureEn, t.lastTs)
  | .fault _ => none
  | .refused _ => none

/-- The response a step leaves. -/
def respOf : Host.Outcome State Fault Refusal → Option Resp
  | .next t => some t.resp
  | .fault _ => none
  | .refused _ => none

/-- The outcome a step leaves. -/
def outcomeOf : Host.Outcome State Fault Refusal → Option CmdOutcome
  | .next t => t.outcome
  | .fault _ => none
  | .refused _ => none

/-- V-D9: a capture in progress. -/
def partialCapture : State := at' (seqOf [6, 2, 1, 2, 2]) 5 13 false 9000

/-- V-D7: the shortest complete message with a valid header. -/
def message : State := at' (seqOf ([6, 2, 1] ++ List.replicate 14 3)) 17 51 true 9000

/-- A message whose compensation changes nothing: V-D5. -/
def messageNoToggle : State := at' (seqOf ([6, 2, 1, 2, 2, 2, 2] ++ List.replicate 11 3 ++ [2])) 19 52 true 9000

/-- V-D8, last row: no leader at all. -/
def headless : State := at' (seqOf (List.replicate 17 3)) 17 51 true 9000

/-- 44 entries with SUM = 50: V-E16. -/
def full : State := at' (seqOf ([6, 2] ++ List.replicate 42 1)) 44 50 false 9000

/-- An empty sequence at LAST_TS = 0. -/
def emptyCapture : State := at' [] 0 0 false 0

/-! ### Well-formedness, decoding, encoding -/

theorem test_wellFormed_refuses_wide_ts : WellFormed 32 (.edge (2 ^ 32)) = false := by decide
theorem test_wellFormed_accepts_widest_ts : WellFormed 32 (.edge (2 ^ 32 - 1)) = true := by decide
theorem test_params_wf_default : Params.default.wf = true := by decide
theorem test_params_wf_refuses_narrow_clock : { Params.default with clkW := 11 }.wf = false := by decide
theorem test_params_wf_refuses_equal_thresholds : { Params.default with th2 := 671 }.wf = false := by decide
theorem test_params_wf_refuses_zero_threshold : { Params.default with th1 := 0 }.wf = false := by decide
theorem test_params_wf_refuses_wide_init : { Params.default with lastTsInit := 2 ^ 32 }.wf = false := by decide
theorem test_memory_wf_refuses_falling : Memory.wf [(1, 2#3), (0, 6#3)] = false := by decide
theorem test_memory_wf_refuses_index_44 : Memory.wf [(44, 1#3)] = false := by decide

/-- op = 000, ts = 0x0DEADBEEF's low 32 bits: still NOP (V-N2). -/
theorem test_decode_nop : decode 32 0b00011011110101011011011111011101111 = .ok .nop := by decide
/-- op = 001, ts = 103556 (V-E1). -/
theorem test_decode_edge : decode 32 0b00100000000000000011001010010000100 = .ok (.edge 103556) := by decide
/-- op = 010, ts = 1 ignored. -/
theorem test_decode_pollCode : decode 32 0b01000000000000000000000000000000001 = .ok .pollCode := by decide
/-- op = 011. -/
theorem test_decode_pollFields : decode 32 0b01100000000000000000000000000000000 = .ok .pollFields := by decide
/-- op = 100. -/
theorem test_decode_reset : decode 32 0b10000000000000000000000000000000000 = .ok .reset := by decide
/-- V-X1: ops 101, 110 and 111. -/
theorem test_decode_reserved :
    decode 32 0x500000000 = .error (.reservedOp 5) ∧ decode 32 0x600000000 = .error (.reservedOp 6) ∧
      decode 32 0x7FFFFFFFF = .error (.reservedOp 7) := by decide
/-- A 36th bit is no line of the port. -/
theorem test_decode_too_wide : decode 32 0x800000000 = .error .wordTooWide := by decide
/-- At CLK_W = 12 the same fields lie in bits 14:12 and 11:0 (R71). -/
theorem test_decode_narrow_clock : decode 12 0b001101101011111 = .ok (.edge 2911) := by decide
theorem test_encode_edge : encode 32 (.edge 103556) = 0x100019484 := by decide
theorem test_decodeTableWord_edge : decodeTableWord 40 0x100019484 = some (.edge 103556) := by decide
theorem test_decodeTableWord_reserved : decodeTableWord 40 0x600000000 = none := by decide

/-! ### The quantizer: W2, V-C1, V-C2 -/

theorem test_classify_boundaries :
    [668, 674, 1116, 1122, 2012, 2018, 2908, 2914, 0, 670, 671, 1118, 1119, 2014, 2015, 2910, 2911, 2 ^ 32 - 1].map
        (classify Params.default) =
      [some .u1, some .u2, some .u2, some .u3, some .u3, some .u6, some .u6, none,
        some .u1, some .u1, some .u2, some .u2, some .u3, some .u3, some .u6, some .u6, none, none] := by decide

theorem test_elapsed_wraps :
    elapsed 32 0x000000BC 0xFFFFFF00 = 444 ∧ elapsed 32 0 0xFFFFFFFF = 1 ∧ elapsed 32 4000 5000 = 4294966296 ∧
      elapsed 32 7 7 = 0 := by decide

/-! ### One step of each command -/

/-- V-N1. -/
theorem test_nop : regs (exec .nop message) = some (17, 51, true, false, 9000) := by decide
/-- V-E13: SUM 50 + 1 completes at CURSOR 44. -/
theorem test_edge_completes :
    regs (exec (.edge 9444) (at' (seqOf ([6, 3] ++ List.replicate 41 1)) 43 50 false 9000)) =
      some (44, 51, true, false, 9444) := by decide
/-- V-E17: a unit 6 at CURSOR = 44 restarts instead of overflowing. -/
theorem test_edge_leader_at_capacity :
    regs (exec (.edge 11667) full) = some (1, 6, false, true, 11667) ∧
      outcomeOf (exec (.edge 11667) full) = some (.leaderRestart 2667) := by decide
/-- V-D6: entries of value 0 sample again at the same offset. -/
theorem test_pollCode_zero_entries :
    respOf (exec .pollCode (at' (seqOf ([6, 2] ++ List.replicate 11 1 ++ List.replicate 11 3)) 24 52 true 9000)) =
      some (.code (some 0x00000FBF#32)) := by decide
/-- V-D7, and V-D10 for what a second poll finds. -/
theorem test_pollCode_shortest_message :
    respOf (exec .pollCode message) = some (.code (some 0x000001BF#32)) ∧
      regs (exec .pollCode message) = some (0, 0, false, true, 9000) := by decide
/-- V-D2. -/
theorem test_pollFields_end_to_end :
    respOf (exec .pollFields (at' (seqOf ([6, 2, 1, 2, 1, 1, 1, 1, 3, 3] ++ List.replicate 22 1 ++ [2, 1, 1, 2, 1, 1]))
        38 51 true 115328)) = some (.fields (some ⟨true, 0#3, 0x00#8, 0x0C#8⟩)) := by decide
/-- V-D8, last row. -/
theorem test_pollFields_header_fail :
    respOf (exec .pollFields headless) = some (.fields none) ∧
      outcomeOf (exec .pollFields headless) = some .headerFail := by decide
/-- V-R1. -/
theorem test_reset : regs (exec .reset message) = some (0, 0, false, true, 0) := by decide
/-- A step takes the word and runs it: V-E1 through the port. -/
theorem test_step_edge :
    regs (step ((at' (seqOf [6]) 1 6 false 102667).withFetchWord 40 0x100019484)) =
      some (2, 8, false, true, 103556) := by decide
/-- W4: the fields of the round-trip frame pack to 0x001A1A3C. -/
theorem test_frameCode : frameCode ⟨false, 5#3, 0x1A#8, 0x3C#8⟩ = 0x001A1A3C#32 := by decide
/-- V-D1: what capture keeps of the round-trip frame. -/
theorem test_captured_round_trip :
    captured 0 (frameUnits ⟨false, 5#3, 0x1A#8, 0x3C#8⟩) =
      [6, 2, 1, 1, 1, 2, 2, 3, 2, 1, 1, 1, 1, 1, 2, 1, 1, 2, 2, 2, 1, 1, 1, 1, 2, 1, 1, 1, 1, 1, 1, 2, 1, 1] := by
  decide
/-- P1, lines 1 to 4, with a comment. -/
theorem test_assemble :
    assemble 32
      [['R', 'E', 'S', 'E', 'T'], [';', 'x'], ['E', 'D', 'G', 'E', ' ', '1', '0', '0', '0', '0', '0'],
        ['E', 'D', 'G', 'E', ' ', '+', '2', '6', '6', '7', ' ', ';', ' ', 'l'],
        ['E', 'D', 'G', 'E', ' ', '+', '0', 'x', '3', '7', '9']] =
      .ok [0x400000000, 0x1000186A0, 0x10001910B, 0x100019484] := by decide
/-- U16. -/
theorem test_assemble_relative_first :
    assemble 32 [['N', 'O', 'P'], ['E', 'D', 'G', 'E', ' ', '+', '5']] = .error .relativeFirstEdge := by decide
theorem test_wordDigits : wordDigits 9 0x10001910B = [1, 0, 0, 0, 1, 9, 1, 0, 11] := by decide

/-! ### States that meet the invariant -/

theorem partialCapture_inv : partialCapture.Inv where
  params_wf := by decide
  seq_wf := by decide
  lastTs_lt := by decide
  flags := by decide
  cursor_le := by decide
  entries := entriesOk_of_all (n := 5) (by decide)
  sum_eq := by decide
  sum_capturing := by decide
  sum_complete := by decide

theorem message_inv : message.Inv where
  params_wf := by decide
  seq_wf := by decide
  lastTs_lt := by decide
  flags := by decide
  cursor_le := by decide
  entries := entriesOk_of_all (n := 17) (by decide)
  sum_eq := by decide
  sum_capturing := by decide
  sum_complete := by decide

theorem messageNoToggle_inv : messageNoToggle.Inv where
  params_wf := by decide
  seq_wf := by decide
  lastTs_lt := by decide
  flags := by decide
  cursor_le := by decide
  entries := entriesOk_of_all (n := 19) (by decide)
  sum_eq := by decide
  sum_capturing := by decide
  sum_complete := by decide

theorem full_inv : full.Inv where
  params_wf := by decide
  seq_wf := by decide
  lastTs_lt := by decide
  flags := by decide
  cursor_le := by decide
  entries := entriesOk_of_all (n := 44) (by decide)
  sum_eq := by decide
  sum_capturing := by decide
  sum_complete := by decide

theorem emptyCapture_inv : emptyCapture.Inv where
  params_wf := by decide
  seq_wf := by decide
  lastTs_lt := by decide
  flags := by decide
  cursor_le := by decide
  entries := entriesOk_of_all (n := 0) (by decide)
  sum_eq := by decide
  sum_capturing := by decide
  sum_complete := by decide

/-- One unit 3 before completion: CURSOR = 30, SUM = 50 (V-E15). -/
def nearlyComplete : State := at' (seqOf ([6, 2, 1] ++ List.replicate 14 2 ++ List.replicate 13 1)) 30 50 false 9000

theorem nearlyComplete_inv : nearlyComplete.Inv where
  params_wf := by decide
  seq_wf := by decide
  lastTs_lt := by decide
  flags := by decide
  cursor_le := by decide
  entries := entriesOk_of_all (n := 30) (by decide)
  sum_eq := by decide
  sum_capturing := by decide
  sum_complete := by decide

theorem message_header : HeaderHolds message.seq := ⟨by decide, by decide, by decide⟩

theorem messageNoToggle_header : HeaderHolds messageNoToggle.seq := ⟨by decide, by decide, by decide⟩

/-! ### Witnesses: encoding, steps and runs -/

theorem witness_DecodeOfEncodeIsSame : WellFormed 32 (.edge (2 ^ 32 - 1)) = true := by decide
theorem witness_AcceptedWordReencodes : decode 32 0x1FFFFFFFF = .ok (.edge (2 ^ 32 - 1)) := by decide
theorem witness_IgnoredTimestampSelectsSame :
    (7 < 8 ∧ 7 ≠ 1 ∧ 0 < 2 ^ 32 ∧ 2 ^ 32 - 1 < 2 ^ 32) ∧ (0 < 8 ∧ 0 ≠ 1) := by decide
theorem witness_OpcodeTableAgreesWithDecoder :
    ∃ row ∈ opcodeTable, 0x100019484 < 2 ^ 35 ∧ 0x100019484 &&& row.mask = row.pattern :=
  ⟨⟨"EDGE", 0x700000000, 0x100000000⟩, by decide, by decide, by decide⟩
theorem witness_ReservedOpIsRefused :
    ({ message with cmds := [7 * 2 ^ 32 + (2 ^ 32 - 1)] } : State).cmds =
      (7 * 2 ^ message.params.clkW + (2 ^ 32 - 1)) :: [] ∧ 2 ^ 32 - 1 < 2 ^ message.params.clkW := by decide
theorem witness_StepRunsDecodedCommand :
    ({ message with cmds := [0x200000000, 0] } : State).cmds = 0x200000000 :: [0] ∧
      decode message.params.clkW 0x200000000 = .ok .pollCode ∧ WellFormed message.params.clkW .pollCode = true := by
  decide
theorem witness_WaitingStepKeepsItems : message.cmds = [] := by decide
theorem witness_PlacedTableWordRunsNext :
    message.params.clkW = 32 ∧ decodeTableWord 40 0x300000000 = some .pollFields := by decide
theorem witness_RunFollowsAcceptedOrder :
    (∀ i ∈ [Instr.edge 7, .pollCode], WellFormed message.params.clkW i = true) ∧
      ({ message with cmds := [0x100000007, 0x200000000, 5] } : State).cmds =
        [Instr.edge 7, .pollCode].map (encode message.params.clkW) ++ [5] := by decide

/-! ### Witnesses: the invariant -/

theorem witness_PowerUpIsResetState : message.params = Params.default := by decide
theorem witness_ResetMeetsInvariant : Params.default.wf = true := by decide
theorem witness_StepKeepsInvariant :
    ∃ t, ({ message with cmds := [0x200000000] } : State).Inv ∧
      step { message with cmds := [0x200000000] } = .next t :=
  ⟨_, ⟨message_inv.params_wf, message_inv.seq_wf, message_inv.lastTs_lt, message_inv.flags, message_inv.cursor_le,
    message_inv.entries, message_inv.sum_eq, message_inv.sum_capturing, message_inv.sum_complete⟩, rfl⟩
theorem witness_EveryCommandCompletes : message.Inv := message_inv
theorem witness_UnreservedTraceNeverStops :
    ({ message with cmds := [0x4FFFFFFFF] } : State).Inv ∧
      ∀ w ∈ ({ message with cmds := [0x4FFFFFFFF] } : State).cmds, commandWord message.params.clkW w = true :=
  ⟨⟨message_inv.params_wf, message_inv.seq_wf, message_inv.lastTs_lt, message_inv.flags, message_inv.cursor_le,
    message_inv.entries, message_inv.sum_eq, message_inv.sum_capturing, message_inv.sum_complete⟩, by decide⟩
theorem witness_StaleEntriesAreNeverRead :
    ∃ t, message.Inv ∧ Memory.wf (message.seq ++ [(17, 7#3)]) = true ∧
      (∀ k < message.cursor.toNat, Memory.entry (message.seq ++ [(17, 7#3)]) k = message.seq.entry k) ∧
      exec .pollCode message = .next t :=
  ⟨_, message_inv, by decide, by decide, rfl⟩
theorem witness_NothingElsePersists :
    SameItems message { message with freeIdx := 9, cmds := [3] } ∧
      ({ message with freeIdx := 9, cmds := [3] } : State).params = message.params :=
  ⟨⟨rfl, rfl, rfl, rfl, rfl, rfl⟩, rfl⟩
theorem witness_FlagsHaveTheirWriters_rises :
    ∃ t, nearlyComplete.Inv ∧ exec (.edge 10333) nearlyComplete = .next t ∧ nearlyComplete.msgReady = false ∧
      t.msgReady = true ∧ nearlyComplete.captureEn = true ∧ t.captureEn = false ∧ t.lastTs ≠ nearlyComplete.lastTs :=
  ⟨_, nearlyComplete_inv, rfl, by decide, by decide, by decide, by decide, by decide⟩
theorem witness_FlagsHaveTheirWriters_falls :
    ∃ t, message.Inv ∧ exec .reset message = .next t ∧ message.msgReady = true ∧ t.msgReady = false ∧
      message.captureEn = false ∧ t.captureEn = true ∧ t.lastTs ≠ message.lastTs :=
  ⟨_, message_inv, rfl, by decide, by decide, by decide, by decide, by decide⟩
theorem witness_ReceiverPhaseIsReadFromFlags : message.Inv ∧ partialCapture.Inv := ⟨message_inv, partialCapture_inv⟩

/-! ### Witnesses: EDGE, at the boundaries of its classes -/

theorem witness_ClassifyFollowsThresholds : Params.default.wf = true := by decide
theorem witness_ElapsedToleratesWraparound :
    (188 < 2 ^ 32 ∧ 0xFFFFFF00 < 2 ^ 32 ∧ 188 < 0xFFFFFF00) ∧ (5000 < 2 ^ 32 ∧ 5000 ≤ 5000) := by decide
theorem witness_LongIntervalsAlias : 2 ^ 32 - 1 < 2 ^ Params.default.clkW := by decide
theorem witness_DisabledEdgeChangesNothing :
    123111 < 2 ^ message.params.clkW ∧ message.captureEn = false := by decide
/-- V-E10. -/
theorem witness_InvalidIntervalEmptiesSequence :
    11911 < 2 ^ partialCapture.params.clkW ∧ partialCapture.captureEn = true ∧
      classify partialCapture.params (elapsed partialCapture.params.clkW 11911 partialCapture.lastTs) = none := by
  decide
/-- Both ends of the class of unit 6. -/
theorem witness_LeaderRestartsSequence :
    11015 < 2 ^ full.params.clkW ∧ full.captureEn = true ∧
      classify full.params (elapsed full.params.clkW 11015 full.lastTs) = some .u6 ∧
      classify full.params (elapsed full.params.clkW 11910 full.lastTs) = some .u6 := by decide
theorem witness_FullSequenceOverflows :
    9444 < 2 ^ full.params.clkW ∧ full.captureEn = true ∧ Quantum.u1 ≠ .u6 ∧
      classify full.params (elapsed full.params.clkW 9444 full.lastTs) = some .u1 ∧ full.cursor = 44#6 := by decide
/-- V-E15: SUM 50 + 3 completes. -/
theorem witness_UnitIsAppendedAndCompletes_complete :
    10333 < 2 ^ nearlyComplete.params.clkW ∧ nearlyComplete.captureEn = true ∧ Quantum.u3 ≠ .u6 ∧
      classify nearlyComplete.params (elapsed nearlyComplete.params.clkW 10333 nearlyComplete.lastTs) = some .u3 ∧
      nearlyComplete.cursor.toNat < 44 ∧ nearlyComplete.sum.toNat ≤ 50 ∧
      50 < nearlyComplete.sum.toNat + Quantum.u3.bits.toNat := by decide
/-- V-E14: SUM 48 + 2 = 50 does not complete. -/
theorem witness_UnitIsAppendedAndCompletes_append :
    9889 < 2 ^ (at' [] 20 48 false 9000).params.clkW ∧ (at' [] 20 48 false 9000).captureEn = true ∧
      Quantum.u2 ≠ .u6 ∧ classify Params.default (elapsed 32 9889 (at' [] 20 48 false 9000).lastTs) = some .u2 ∧
      (at' [] 20 48 false 9000).cursor.toNat < 44 ∧ (at' [] 20 48 false 9000).sum.toNat + Quantum.u2.bits.toNat ≤ 50 := by
  decide
theorem witness_SequenceReadsWhatWasWritten :
    partialCapture.seq.wf = true ∧ 43 < 44 ∧ partialCapture.seq.entry 43 = none := by decide
theorem witness_EdgeStoresOneEntryOnly :
    ∃ t, exec (.edge 9444) partialCapture = .next t ∧ t.seq.entry 5 = some 1#3 ∧
      ∀ u, partialCapture.captureEn = true →
        classify partialCapture.params (elapsed partialCapture.params.clkW (operandTs partialCapture.params 9444)
          partialCapture.lastTs) = some u → 4 ≠ storeIndex partialCapture u :=
  ⟨_, rfl, by decide, fun u _ _ => by cases u <;> decide⟩
theorem witness_EdgeOutcomeFollowsItsCause_ignored :
    ∃ t, message.Inv ∧ exec (.edge 7) message = .next t ∧ message.captureEn = false :=
  ⟨_, message_inv, rfl, by decide⟩
/-- e = TH4 and e = TH3, the boundaries of NOISE_RESET and LEADER_RESTART. -/
theorem witness_EdgeOutcomeFollowsItsCause_boundaries :
    (∃ t, exec (.edge 11911) partialCapture = .next t ∧ partialCapture.params.th4 ≤ elapsed 32 11911 9000) ∧
      ∃ t, exec (.edge 11015) partialCapture = .next t ∧ partialCapture.params.th3 ≤ elapsed 32 11015 9000 ∧
        elapsed 32 11015 9000 < partialCapture.params.th4 :=
  ⟨⟨_, rfl, by decide⟩, ⟨_, rfl, by decide, by decide⟩⟩
theorem witness_EdgeOutcomeFollowsItsCause_units :
    (∃ t, full.Inv ∧ exec (.edge 9444) full = .next t ∧ full.cursor.toNat = 44 ∧
      classify full.params (elapsed 32 9444 9000) = some .u1) ∧
    (∃ t, nearlyComplete.Inv ∧ exec (.edge 9444) nearlyComplete = .next t ∧ nearlyComplete.cursor.toNat < 44 ∧
      50 < nearlyComplete.sum.toNat + Quantum.u1.bits.toNat) ∧
    ∃ t, partialCapture.Inv ∧ exec (.edge 9444) partialCapture = .next t ∧
      partialCapture.sum.toNat + Quantum.u1.bits.toNat ≤ 50 :=
  ⟨⟨_, full_inv, rfl, by decide, by decide⟩, ⟨_, nearlyComplete_inv, rfl, by decide, by decide⟩,
    ⟨_, partialCapture_inv, rfl, by decide⟩⟩

/-! ### Witnesses: the polls -/

theorem witness_PollWithoutMessageIsNone : partialCapture.msgReady = false := by decide
theorem witness_MalformedHeaderIsConsumed :
    headless.msgReady = true ∧ headless.seq.entry 0 = some 3#3 ∧ headless.seq.entry 1 = some 3#3 ∧
      headless.seq.entry 2 = some 3#3 ∧ (3#3, 3#3, 3#3) ≠ (6#3, 2#3, 1#3) := by decide
theorem witness_CompensationDecrementsAtEighteen_toggle :
    message.Inv ∧ message.msgReady = true ∧ HeaderHolds message.seq ∧ prefixSum message.seq (5 + 1) = 18 :=
  ⟨message_inv, by decide, message_header, by decide⟩
theorem witness_CompensationDecrementsAtEighteen_none :
    messageNoToggle.Inv ∧ messageNoToggle.msgReady = true ∧ HeaderHolds messageNoToggle.seq ∧
      ∀ j < 44, prefixSum messageNoToggle.seq (j + 1) ≠ 18 :=
  ⟨messageNoToggle_inv, by decide, messageNoToggle_header, by decide⟩
theorem witness_DemodulationSamplesOddOffsets :
    ∃ m, message.Inv ∧ message.msgReady = true ∧ HeaderHolds message.seq ∧ compensate message.seq = .ok m :=
  ⟨_, message_inv, by decide, message_header, rfl⟩
theorem witness_BufferedMessageIsDecoded : message.Inv ∧ message.msgReady = true ∧ HeaderHolds message.seq :=
  ⟨message_inv, by decide, message_header⟩
theorem witness_PollFieldsIsPollCodeDecomposed : ∃ t, exec .pollCode message = .next t := ⟨_, rfl⟩
theorem witness_PollWritesAroundToggleOnly :
    ∃ t, exec .pollFields message = .next t ∧ toggleEntry message.seq = .ok (some 5) ∧
      t.seq.entry 5 ≠ message.seq.entry 5 :=
  ⟨_, rfl, by decide, by decide⟩
theorem witness_CodeIsBoundedBySamples :
    ∃ m w, message.Inv ∧ message.msgReady = true ∧ HeaderHolds message.seq ∧ compensate message.seq = .ok m ∧
      demodulate m = .ok w ∧ w.samples = 9 :=
  ⟨_, _, message_inv, by decide, message_header, rfl, rfl, by decide⟩
theorem witness_PollsDriveTheirLines :
    (message.respond (.code (some 5#32))).resp = .code (some 5#32) ∧ (message.respond (.code none)).resp = .code none ∧
      (message.respond (.fields none)).resp = .fields none ∧
      (message.respond (.fields (some ⟨true, 5#3, 1#8, 2#8⟩))).resp = .fields (some ⟨true, 5#3, 1#8, 2#8⟩) := by decide

/-! ### Witnesses: sequences of commands -/

theorem witness_HandOffKeepsMessage :
    message.Inv ∧ message.msgReady = true ∧ ∀ i ∈ [Instr.edge 7, .nop], i = .nop ∨ ∃ ts, i = .edge ts :=
  ⟨message_inv, by decide, by simp⟩
theorem witness_PartialCaptureStaysPending :
    partialCapture.msgReady = false ∧
      ∀ i ∈ [Instr.pollCode, .nop, .pollFields], i = .nop ∨ i = .pollCode ∨ i = .pollFields := by decide
theorem witness_PollRearmsAndConsumesOnce :
    ∃ t, message.Inv ∧ exec .pollFields message = .next t :=
  ⟨_, message_inv, rfl⟩
theorem witness_CompletingEdgeAndPollInEitherOrder :
    ∃ t, nearlyComplete.Inv ∧ nearlyComplete.msgReady = false ∧ exec (.edge 9444) nearlyComplete = .next t ∧
      t.msgReady = true :=
  ⟨_, nearlyComplete_inv, by decide, rfl, by decide⟩
theorem witness_FirstEdgeAfterRearmIsMeasuredFromCompletion :
    message.Inv ∧ message.msgReady = true ∧ (∀ i ∈ [Instr.edge 9444], i = .nop ∨ ∃ x, i = .edge x) ∧
      9444 < 2 ^ message.params.clkW ∧ classify message.params (elapsed 32 9444 message.lastTs) = some .u1 ∧
      classify message.params (elapsed 32 11911 message.lastTs) = none :=
  ⟨message_inv, by decide, by simp, by decide, by decide, by decide⟩

/-! ### Witnesses: the well-formed frame of P1 -/

/-- The fields of the round-trip frame (W4). -/
def roundTrip : Fields := ⟨false, 5#3, 0x1A#8, 0x3C#8⟩

/-- The EDGE times of P1's frame after its first, 100000 (lines 3 to 37). -/
def roundTripTimes : List Nat :=
  [102667, 103556, 104000, 104444, 104889, 105778, 106667, 108000, 108889, 109333, 109778, 110222, 110667, 
   111111, 112000, 112444, 112889, 113778, 114667, 115556, 116000, 116444, 116889, 117333, 118222, 118667, 
   119111, 119556, 120000, 120444, 120889, 121778, 122222, 122667, 123111]

theorem witness_FrameUnitsDecodeToTheirFields :
    HoldsUnits (seqOf (captured 0 (frameUnits roundTrip))) (captured 0 (frameUnits roundTrip)) := by
  unfold HoldsUnits; decide
theorem witness_FrameCaptureCompletesAtFiftyOne :
    emptyCapture.Inv ∧ emptyCapture.captureEn = true ∧ 100000 < 2 ^ emptyCapture.params.clkW ∧
      classify emptyCapture.params (elapsed emptyCapture.params.clkW 100000 emptyCapture.lastTs) = none ∧
      fitsUnits emptyCapture.params 100000 roundTripTimes (frameUnits roundTrip) = true :=
  ⟨emptyCapture_inv, by decide, by decide, by decide, by decide⟩

/-- The port offered the frame's words and then the poll `p`. -/
def framePort (p : Instr) : State :=
  { emptyCapture with cmds := ((100000 :: roundTripTimes).map Instr.edge ++ [p]).map (encode 32) }

theorem framePort_inv (p : Instr) : (framePort p).Inv :=
  ⟨emptyCapture_inv.params_wf, emptyCapture_inv.seq_wf, emptyCapture_inv.lastTs_lt, emptyCapture_inv.flags,
    emptyCapture_inv.cursor_le, emptyCapture_inv.entries, emptyCapture_inv.sum_eq, emptyCapture_inv.sum_capturing,
    emptyCapture_inv.sum_complete⟩

theorem framePort_meets (p : Instr) :
    (framePort p).Inv ∧ (framePort p).captureEn = true ∧ 100000 < 2 ^ (framePort p).params.clkW ∧
      (framePort p).params.th4 ≤ elapsed (framePort p).params.clkW 100000 (framePort p).lastTs ∧
      fitsUnits (framePort p).params 100000 roundTripTimes (frameUnits roundTrip) = true ∧
      (framePort p).cmds =
        ((100000 :: roundTripTimes).map Instr.edge ++ [p]).map (encode (framePort p).params.clkW) ++ [] :=
  ⟨framePort_inv p, rfl, by simp [framePort, emptyCapture, at', State.resetWith, Params.default],
    by simp [framePort, emptyCapture, at', State.resetWith, Params.default, elapsed],
    witness_FrameCaptureCompletesAtFiftyOne.2.2.2.2, (List.append_nil _).symm⟩

theorem witness_WellFormedFrameRoundTrip_code :
    (framePort .pollCode).Inv ∧ (framePort .pollCode).captureEn = true ∧ 100000 < 2 ^ (framePort .pollCode).params.clkW ∧
      (framePort .pollCode).params.th4 ≤ elapsed (framePort .pollCode).params.clkW 100000 (framePort .pollCode).lastTs ∧
      fitsUnits (framePort .pollCode).params 100000 roundTripTimes (frameUnits roundTrip) = true ∧
      (framePort .pollCode).cmds = ((100000 :: roundTripTimes).map Instr.edge ++ [Instr.pollCode]).map
        (encode (framePort .pollCode).params.clkW) ++ [] :=
  framePort_meets .pollCode

theorem witness_WellFormedFrameRoundTrip_fields :
    (framePort .pollFields).Inv ∧ (framePort .pollFields).captureEn = true ∧ 100000 < 2 ^ (framePort .pollFields).params.clkW ∧
      (framePort .pollFields).params.th4 ≤ elapsed (framePort .pollFields).params.clkW 100000 (framePort .pollFields).lastTs ∧
      fitsUnits (framePort .pollFields).params 100000 roundTripTimes (frameUnits roundTrip) = true ∧
      (framePort .pollFields).cmds = ((100000 :: roundTripTimes).map Instr.edge ++ [Instr.pollFields]).map
        (encode (framePort .pollFields).params.clkW) ++ [] :=
  framePort_meets .pollFields

/-! ### Witnesses: listings -/

theorem witness_ListingCommandsAreWellFormed :
    parseListing 32 [['E', 'D', 'G', 'E', ' ', '7'], ['E', 'D', 'G', 'E', ' ', '+', '4', '2', '9', '4', '9', '6', '7', '2', '9', '5']] =
      .ok [.edge 7, .edge 6] := by decide
/-- The lines before EDGE t hold another EDGE and a relative one, and t and d are the largest of their range. -/
theorem witness_RelativeEdgeExpands :
    2 ^ 32 - 1 < 2 ^ 32 ∧
      (∀ l ∈ [ListingLine.nop, .reset], l = .nop ∨ l = .pollCode ∨ l = .pollFields ∨ l = .reset) ∧
      expandLines 32 none [.edgeAt 100, .edgePlus 7] = .ok [.edge 100, .edge 107] ∧
      expandLines 32 none [.nop, .reset] = .ok [.nop, .reset] := by
  decide

end Sys2Proof.Machine.Tests
end

section
/-! PROOFS. Steps and the commands they run (spec/00_scope.md rule R12, spec/20_memory.md rule R60). -/

namespace Sys2Proof.Machine

/-- A step on a word that decodes is its command, run with that word taken off the port. -/
theorem step_of_decode_ok {s : State} {w : Nat} {rest : List Nat} {i : Instr} (hcmds : s.cmds = w :: rest)
    (hdec : decode s.params.clkW w = .ok i) : step s = exec i { s with cmds := rest } := by
  rw [step_of_cons hcmds, hdec]

/-- Settles O7. The decoder's acceptance alone fixes the step, so the well-formedness of the command is not needed. -/
theorem stepRunsDecodedCommand : Obligations.StepRunsDecodedCommand := by
  unfold Obligations.StepRunsDecodedCommand
  intro s w rest i hcmds hdec _
  exact step_of_decode_ok hcmds hdec

end Sys2Proof.Machine
end

section
/-! PROOFS. All that each command can do, and from it who writes the two flags and LAST_TS (spec/10_state.md rules R20,
R24 to R26). -/

namespace Sys2Proof.Machine

/-! ### All that a command can do -/

/-- EDGE answers by its capture gate (R104). -/
theorem execEdge_eq_next {s t : State} {ts : Nat} :
    execEdge ts s = .next t ↔
      (s.captureEn = false ∧ t = s.accept.record (.ignored (operandTs s.params ts))) ∨
        (s.captureEn = true ∧ admitEdge s.accept (operandTs s.params ts) = .ok t) := by
  cases hc : s.captureEn with
  | false => simp [execEdge_of_disabled hc, eq_comm]
  | true =>
    rw [execEdge_of_enabled hc]
    cases admitEdge s.accept (operandTs s.params ts) <;> simp

/-- A poll answers by MSG_READY; what its response lines carry is its own (R130, R131). -/
theorem exec_poll_cases {i : Instr} {s t : State} (hi : i = .pollCode ∨ i = .pollFields) (h : exec i s = .next t) :
    (s.msgReady = false ∧ ∃ r, t = (s.accept.record .noMessage).respond r) ∨
      (s.msgReady = true ∧ ∃ d c r, decodeMsg s.accept = .ok (d, c) ∧ t = d.respond r) := by
  obtain ⟨d, c, r, hp, rfl⟩ : ∃ d c r, pollMsg s.accept = .ok (d, c) ∧ t = d.respond r := by
    rcases hi with rfl | rfl
    · obtain ⟨d, c, hp, rfl⟩ := execPollCode_eq_next.1 h
      exact ⟨d, c, _, hp, rfl⟩
    · obtain ⟨d, c, hp, rfl⟩ := execPollFields_eq_next.1 h
      exact ⟨d, c, _, hp, rfl⟩
  rcases pollMsg_eq_ok.1 hp with ⟨hr, rfl, -⟩ | ⟨hr, hd⟩
  · exact .inl ⟨hr, r, rfl⟩
  · exact .inr ⟨hr, d, c, r, hd, rfl⟩

/-- All that a command which answers can have done (R73): the five commands, EDGE and the polls at both positions of
their flag. -/
theorem exec_next_cases {i : Instr} {s t : State} (h : exec i s = .next t) :
    (i = .nop ∧ t = s.accept) ∨
      (∃ ts, i = .edge ts ∧ s.captureEn = false ∧ t = s.accept.record (.ignored (operandTs s.params ts))) ∨
      (∃ ts, i = .edge ts ∧ s.captureEn = true ∧ admitEdge s.accept (operandTs s.params ts) = .ok t) ∨
      ((i = .pollCode ∨ i = .pollFields) ∧ s.msgReady = false ∧ ∃ r, t = (s.accept.record .noMessage).respond r) ∨
      ((i = .pollCode ∨ i = .pollFields) ∧ s.msgReady = true ∧
        ∃ d c r, decodeMsg s.accept = .ok (d, c) ∧ t = d.respond r) ∨
      (i = .reset ∧ t = s.accept.clearAll) := by
  have poll (hi : i = .pollCode ∨ i = .pollFields) := exec_poll_cases hi h
  cases i with
  | nop => exact .inl ⟨rfl, (Host.Outcome.next.inj h).symm⟩
  | edge ts =>
    rcases execEdge_eq_next.1 h with ⟨hc, ht⟩ | ⟨hc, ha⟩
    · exact .inr (.inl ⟨ts, rfl, hc, ht⟩)
    · exact .inr (.inr (.inl ⟨ts, rfl, hc, ha⟩))
  | pollCode =>
    rcases poll (.inl rfl) with hn | hd
    · exact .inr (.inr (.inr (.inl ⟨.inl rfl, hn⟩)))
    · exact .inr (.inr (.inr (.inr (.inl ⟨.inl rfl, hd⟩))))
  | pollFields =>
    rcases poll (.inr rfl) with hn | hd
    · exact .inr (.inr (.inr (.inl ⟨.inr rfl, hn⟩)))
    · exact .inr (.inr (.inr (.inr (.inl ⟨.inr rfl, hd⟩))))
  | reset => exact .inr (.inr (.inr (.inr (.inr ⟨rfl, (Host.Outcome.next.inj h).symm⟩))))

/-! ### The flags and LAST_TS -/

/-- The completion test moves both flags and says COMPLETE, or moves neither (R109). -/
theorem State.settleAppend_flags (s : State) (u : Quantum) (e : Nat) :
    ((s.settleAppend u e).msgReady = s.msgReady ∧ (s.settleAppend u e).captureEn = s.captureEn) ∨
      ((s.settleAppend u e).msgReady = true ∧ (s.settleAppend u e).captureEn = false ∧
        (s.settleAppend u e).outcome = some (.complete (s.settleAppend u e).cursor)) := by
  unfold State.settleAppend
  split
  · exact .inr ⟨rfl, rfl, rfl⟩
  · split <;> exact .inl ⟨rfl, rfl⟩

/-- The append writes the sequence and its two registers only (R108). -/
theorem State.appendEntry_frame {s t : State} {v : Entry} (h : s.appendEntry v = .ok t) :
    t.captureEn = s.captureEn ∧ t.msgReady = s.msgReady ∧ t.lastTs = s.lastTs ∧ t.params = s.params := by
  obtain ⟨-, rfl⟩ := State.appendEntry_eq_ok.1 h
  exact ⟨rfl, rfl, rfl, rfl⟩

/-- An admitted EDGE keeps both flags, or completes a message (R105 to R109). -/
theorem admitEdge_flags {s t : State} {ts : Nat} (h : admitEdge s ts = .ok t) :
    (t.msgReady = s.msgReady ∧ t.captureEn = s.captureEn) ∨
      (t.msgReady = true ∧ t.captureEn = false ∧ t.outcome = some (.complete t.cursor)) := by
  rcases admitEdge_eq_ok h with ⟨-, rfl⟩ | ⟨u, -, ⟨-, rfl⟩ | ⟨-, s', hs, rfl⟩⟩
  · exact .inl ⟨rfl, rfl⟩
  · exact .inl ⟨by simp, by simp⟩
  · obtain ⟨hen, hready, -, -⟩ := State.appendEntry_frame hs
    simpa [hen, hready] using State.settleAppend_flags s' u (elapsed s.params.clkW ts s.lastTs)

/-- The flags move together: a completing EDGE sets MSG_READY and clears CAPTURE_EN, a POLL or RESET does the reverse,
and nothing else writes them (R24, R25). -/
theorem exec_flags_cases {i : Instr} {s t : State} (h : exec i s = .next t) :
    (t.msgReady = s.msgReady ∧ t.captureEn = s.captureEn) ∨
      ((∃ ts, i = .edge ts) ∧ t.msgReady = true ∧ t.captureEn = false ∧ t.outcome = some (.complete t.cursor)) ∨
      ((i = .pollCode ∨ i = .pollFields ∨ i = .reset) ∧ t.msgReady = false ∧ t.captureEn = true) := by
  rcases exec_next_cases h with ⟨-, rfl⟩ | ⟨ts, -, -, rfl⟩ | ⟨ts, hi, -, ha⟩ | ⟨-, -, r, rfl⟩ |
    ⟨hi, -, d, c, r, hd, rfl⟩ | ⟨hi, rfl⟩
  · exact .inl ⟨rfl, rfl⟩
  · exact .inl ⟨rfl, rfl⟩
  · exact (admitEdge_flags ha).imp id fun hcomplete => .inl ⟨⟨ts, hi⟩, hcomplete⟩
  · exact .inl ⟨rfl, rfl⟩
  · obtain ⟨-, -, hready, hen, -⟩ := decodeMsg_frame hd
    exact .inr (.inr ⟨by tauto, hready, hen⟩)
  · exact .inr (.inr ⟨.inr (.inr hi), rfl, rfl⟩)

/-- LAST_TS is kept by all but an admitted EDGE and RESET (R26). -/
theorem exec_lastTs_cases {i : Instr} {s t : State} (h : exec i s = .next t) :
    t.lastTs = s.lastTs ∨ ((∃ ts, i = .edge ts) ∧ s.captureEn = true) ∨ i = .reset := by
  rcases exec_next_cases h with ⟨-, rfl⟩ | ⟨ts, -, -, rfl⟩ | ⟨ts, hi, hc, -⟩ | ⟨-, -, r, rfl⟩ |
    ⟨-, -, d, c, r, hd, rfl⟩ | ⟨hi, -⟩
  · exact .inl rfl
  · exact .inl rfl
  · exact .inr (.inl ⟨⟨ts, hi⟩, hc⟩)
  · exact .inl rfl
  · obtain ⟨-, -, -, -, hts, -⟩ := decodeMsg_frame hd
    exact .inl hts
  · exact .inr (.inr hi)

/-- Settles O20. The three ways a command can move the flags decide every clause on them; the invariant is not needed. -/
theorem flagsHaveTheirWriters : Obligations.FlagsHaveTheirWriters := by
  unfold Obligations.FlagsHaveTheirWriters
  intro s t i _ h
  have hts : t.lastTs ≠ s.lastTs → ((∃ ts, i = .edge ts) ∧ s.captureEn = true) ∨ i = .reset :=
    (exec_lastTs_cases h).resolve_left
  rcases exec_flags_cases h with ⟨hready, hen⟩ | ⟨hi, hready, hen, hout⟩ | ⟨hi, hready, hen⟩
  · rw [hready, hen]
    refine ⟨?_, ?_, ?_, ?_, hts⟩ <;> intro hbefore hafter <;> simp [hbefore] at hafter
  · exact ⟨fun _ _ => ⟨hen, hi, hout⟩, by simp [hready], fun _ _ => ⟨hready, hi, hout⟩, by simp [hen], hts⟩
  · exact ⟨by simp [hready], fun _ _ => ⟨hen, hi⟩, by simp [hen], fun _ _ => ⟨hready, hi⟩, hts⟩

end Sys2Proof.Machine
end

section
/-! PROOFS. The invariant of spec/10_state.md rule R32: it holds after reset, every command and every step keeps it, and
the receiver's phase is read from the flags under it (R29). -/

namespace Sys2Proof.Machine

/-- The invariant speaks of the six items and the parameters only. -/
theorem State.Inv.of_sameItems {s t : State} (h : s.Inv) (hsame : SameItems s t) (hparams : t.params = s.params) :
    t.Inv := by
  obtain ⟨hseq, hcursor, hsum, hen, hready, hts⟩ := hsame
  cases s
  cases t
  simp only at hseq hcursor hsum hen hready hts hparams
  subst hseq hcursor hsum hen hready hts hparams
  exact { h with }

/-- Capturing with an empty sequence meets the invariant, whatever the entries hold. -/
theorem State.inv_of_empty {s : State} (hp : s.params.wf = true) (hseq : s.seq.wf = true)
    (hts : s.lastTs < 2 ^ s.params.clkW) (hcursor : s.cursor = 0#6) (hsum : s.sum = 0#6)
    (hen : s.captureEn = true) (hready : s.msgReady = false) : s.Inv where
  params_wf := hp
  seq_wf := hseq
  lastTs_lt := hts
  flags := by rw [hen, hready]; rfl
  cursor_le := by simp [hcursor]
  entries := by simp [hcursor]
  sum_eq := by simp [hcursor, hsum]
  sum_capturing := by simp [hsum]
  sum_complete := by simp [hready]

/-- The reset values meet the invariant where the parameters are in range (R8, R200). -/
theorem State.resetWith_inv {p : Params} (c : List Nat) (hp : p.wf = true) : (State.resetWith p c).Inv :=
  State.inv_of_empty hp rfl (Params.lastTsInit_lt_of_wf hp) rfl rfl rfl rfl

/-- Settles O14. -/
theorem resetMeetsInvariant : Obligations.ResetMeetsInvariant := by
  unfold Obligations.ResetMeetsInvariant
  exact ⟨fun _ c hp => State.resetWith_inv c hp, State.resetWith_inv [] (by decide)⟩

/-- Settles O21. I1 leaves two of the four combinations of the flags, and they are the two phases. -/
theorem receiverPhaseIsReadFromFlags : Obligations.ReceiverPhaseIsReadFromFlags := by
  unfold Obligations.ReceiverPhaseIsReadFromFlags
  intro s h
  cases hready : s.msgReady with
  | false => simp [State.phase, hready, h.captureEn_of_not_ready hready]
  | true => simp [State.phase, hready, h.not_captureEn_of_ready hready]

/-! ### What the parts of EDGE keep -/

/-- The time an EDGE stores is taken at the width of LAST_TS (R26). -/
theorem State.Inv.setLastTs {s : State} (h : s.Inv) (ts : Nat) : (s.setLastTs ts).Inv :=
  { h with lastTs_lt := Nat.mod_lt _ (Nat.two_pow_pos _) }

theorem State.Inv.emptySeq {s : State} (h : s.Inv) (hready : s.msgReady = false) : s.emptySeq.Inv :=
  State.inv_of_empty h.params_wf h.seq_wf h.lastTs_lt rfl rfl (h.captureEn_of_not_ready hready) hready

theorem State.Inv.leaderReset {s : State} (h : s.Inv) (hready : s.msgReady = false) (u : Quantum) :
    (s.leaderReset u).Inv := by
  unfold State.leaderReset
  split
  · exact h.emptySeq hready
  · exact h

theorem State.Inv.record {s : State} (h : s.Inv) (o : CmdOutcome) : (s.record o).Inv :=
  h.of_sameItems (sameItems_record s o) rfl

/-- The append moves CURSOR on by one, without overflow (R108). -/
theorem State.appendEntry_cursor {s t : State} {v : Entry} (h : s.appendEntry v = .ok t) :
    t.cursor.toNat = s.cursor.toNat + 1 := by
  obtain ⟨hcap, rfl⟩ := State.appendEntry_eq_ok.1 h
  simp only [Config.cap] at hcap
  have hlt : s.cursor.toNat + (1#6).toNat < 2 ^ 6 := by simp; omega
  exact BitVec.toNat_add_of_lt hlt

/-- The append adds the entry's units to SUM where SUM's 6 bits can hold the result (R108). -/
theorem State.appendEntry_sum {s t : State} {v : Entry} (h : s.appendEntry v = .ok t)
    (hlt : s.sum.toNat + v.toNat < 64) : t.sum.toNat = s.sum.toNat + v.toNat := by
  obtain ⟨-, rfl⟩ := State.appendEntry_eq_ok.1 h
  rw [BitVec.toNat_add_of_lt, entry_setWidth_toNat]
  rwa [entry_setWidth_toNat]

/-- The entries below the new CURSOR are those that were there, and the one appended (R108). -/
theorem State.appendEntry_entry {s t : State} {v : Entry} (h : s.appendEntry v = .ok t) (k : Nat) :
    t.seq.entry k = if k = s.cursor.toNat then some v else s.seq.entry k := by
  obtain ⟨-, rfl⟩ := State.appendEntry_eq_ok.1 h
  exact Memory.entry_insert ..

/-- The cumulative offset moves on by the entry appended. -/
theorem State.appendEntry_prefixSum {s t : State} {v : Entry} (h : s.appendEntry v = .ok t) :
    prefixSum t.seq t.cursor.toNat = prefixSum s.seq s.cursor.toNat + v.toNat := by
  have hentry := State.appendEntry_entry h
  have hbelow : prefixSum t.seq s.cursor.toNat = prefixSum s.seq s.cursor.toNat :=
    prefixSum_congr fun k hk => by rw [hentry, if_neg (Nat.ne_of_lt hk)]
  rw [State.appendEntry_cursor h, prefixSum_succ, hbelow, entryUnits_of_entry (v := v) (by simp [hentry])]

/-- Units of which only the first may be a 6 sum to at most 3 each, and 3 more for that first (I3, I4). -/
theorem prefixSum_le_of_entries {m : Memory} {n : Nat}
    (h : ∀ k < n, ∃ v, m.entry k = some v ∧ isUnit v = true ∧ (v = 6#3 → k = 0)) : prefixSum m n ≤ 3 * n + 3 := by
  induction n with
  | zero => simp
  | succ n ih =>
    obtain ⟨v, hv, hunit, hsix⟩ := h n (by omega)
    have hle := ih fun k hk => h k (by omega)
    rw [prefixSum_succ, entryUnits_of_entry hv]
    rcases isUnit_iff.1 hunit with rfl | rfl | rfl | rfl
    · simp; omega
    · simp; omega
    · simp; omega
    · obtain rfl := hsix rfl
      simp

/-- While capturing, SUM is at most 50, so a unit of 3 or less takes it to at most 53; a unit 6 stands alone (R106). -/
theorem State.Inv.sum_add_unit_le {s : State} {u : Quantum} (h : s.Inv) (hready : s.msgReady = false)
    (hlead : u = .u6 → s.cursor = 0#6) : s.sum.toNat + u.bits.toNat ≤ 53 := by
  by_cases hu : u = .u6
  · have hzero : s.sum.toNat = 0 := by rw [h.sum_eq, hlead hu]; rfl
    simp [hzero, hu, Quantum.bits]
  · have hsum : s.sum.toNat ≤ 50 := h.sum_capturing hready
    have hunit := (Quantum.bits_toNat_le_three hu).2
    omega

/-- The append of a unit keeps I3 and I4, where a 6 is appended to an empty sequence only (R106, R108). -/
theorem State.Inv.appendEntry_entries {s t : State} {u : Quantum} (h : s.Inv) (hlead : u = .u6 → s.cursor = 0#6)
    (happ : s.appendEntry u.bits = .ok t) :
    ∀ k < t.cursor.toNat, ∃ v, t.seq.entry k = some v ∧ isUnit v = true ∧ (v = 6#3 → k = 0) := by
  intro k hk
  rw [State.appendEntry_cursor happ] at hk
  rw [State.appendEntry_entry happ]
  by_cases hlast : k = s.cursor.toNat
  · refine ⟨u.bits, if_pos hlast, u.isUnit_bits, fun hsix => ?_⟩
    rw [hlast, hlead (Quantum.bits_eq_six.1 hsix)]
    rfl
  · rw [if_neg hlast]
    exact h.entries k (by omega)

/-- The append of a unit keeps the invariant together with the completion test after it, which compares SUM with 50
(R108, R109). -/
theorem State.Inv.settleAppend {s t : State} {u : Quantum} (e : Nat) (h : s.Inv) (hready : s.msgReady = false)
    (hlead : u = .u6 → s.cursor = 0#6) (happ : s.appendEntry u.bits = .ok t) : (t.settleAppend u e).Inv := by
  have hbound := h.sum_add_unit_le hready hlead
  have hsum := State.appendEntry_sum happ (by omega)
  have hsum_eq : t.sum.toNat = prefixSum t.seq t.cursor.toNat := by
    rw [hsum, State.appendEntry_prefixSum happ, h.sum_eq]
  have hentries := h.appendEntry_entries hlead happ
  have hlen := prefixSum_le_of_entries hentries
  have hcursor : t.cursor.toNat ≤ Config.cap := by
    rw [State.appendEntry_cursor happ]; exact (State.appendEntry_eq_ok.1 happ).1
  have hseq : t.seq.wf = true := by
    obtain ⟨hcap, rfl⟩ := State.appendEntry_eq_ok.1 happ; exact Memory.wf_insert _ h.seq_wf hcap
  obtain ⟨hen, hready', hts, hparams⟩ := State.appendEntry_frame happ
  have hp : t.params.wf = true := hparams ▸ h.params_wf
  have hts' : t.lastTs < 2 ^ t.params.clkW := by rw [hts, hparams]; exact h.lastTs_lt
  unfold State.settleAppend
  by_cases hover : 50 < t.sum.toNat
  · have hcomplete : t.completeMsg.Inv :=
      { params_wf := hp, seq_wf := hseq, lastTs_lt := hts', flags := rfl, cursor_le := hcursor
        entries := hentries, sum_eq := hsum_eq, sum_capturing := by simp
        sum_complete := fun _ => by simp only [State.completeMsg_sum, State.completeMsg_cursor]; omega }
    rw [if_pos (by simpa [State.overFrame] using hover)]
    exact hcomplete.record _
  · have hcapturing : t.Inv :=
      { params_wf := hp, seq_wf := hseq, lastTs_lt := hts', flags := by rw [hen, hready']; exact h.flags
        cursor_le := hcursor, entries := hentries, sum_eq := hsum_eq
        sum_capturing := fun _ => Nat.le_of_not_lt hover, sum_complete := by simp [hready', hready] }
    rw [if_neg (by simpa [State.overFrame] using hover)]
    split <;> exact hcapturing.record _

/-- An admitted EDGE keeps the invariant: CURSOR and SUM are emptied, or an append is settled (R105 to R109). -/
theorem State.Inv.admitEdge {s t : State} {ts : Nat} (h : s.Inv) (hready : s.msgReady = false)
    (ha : admitEdge s ts = .ok t) : t.Inv := by
  have hts := h.setLastTs ts
  rcases admitEdge_eq_ok ha with ⟨-, rfl⟩ | ⟨u, -, ⟨-, rfl⟩ | ⟨-, s', happ, rfl⟩⟩
  · exact (hts.emptySeq hready).record _
  · exact ((hts.leaderReset hready u).emptySeq (by simpa using hready)).record _
  · exact (hts.leaderReset hready u).settleAppend _ (by simpa using hready) (fun hu => by simp [hu]) happ

/-! ### DECODE, commands and steps -/

/-- DECODE empties the sequence and re-arms; what the compensation wrote keeps the canonical form (R132 to R136). -/
theorem State.Inv.decodeMsg {s t : State} {c : Option Code} (h : s.Inv) (hd : decodeMsg s = .ok (t, c)) : t.Inv := by
  have hseq : t.seq.wf = true := by
    rcases decodeMsg_eq_ok.1 hd with ⟨-, rfl, -⟩ | ⟨m, w, -, hm, -, rfl, -⟩
    · exact h.seq_wf
    · exact compensate_wf hm h.seq_wf
  obtain ⟨hcursor, hsum, hready, hen, hts, hparams, -⟩ := decodeMsg_frame hd
  exact State.inv_of_empty (hparams ▸ h.params_wf) hseq (by rw [hts, hparams]; exact h.lastTs_lt) hcursor hsum hen hready

theorem State.Inv.accept {s : State} (h : s.Inv) : s.accept.Inv := h.of_sameItems (sameItems_accept s) rfl

/-- Every command that answers keeps the invariant. -/
theorem State.Inv.exec {i : Instr} {s t : State} (h : s.Inv) (he : exec i s = .next t) : t.Inv := by
  rcases exec_next_cases he with ⟨-, rfl⟩ | ⟨ts, -, -, rfl⟩ | ⟨ts, -, hen, ha⟩ | ⟨-, -, r, rfl⟩ |
    ⟨-, -, d, c, r, hd, rfl⟩ | ⟨-, rfl⟩
  · exact h.accept
  · exact h.accept.record _
  · have hready : s.msgReady = false := by simpa [h.flags] using hen
    exact h.accept.admitEdge hready ha
  · exact (h.accept.record _).of_sameItems (sameItems_respond _ r) rfl
  · exact (h.accept.decodeMsg hd).of_sameItems (sameItems_respond d r) rfl
  · exact State.inv_of_empty h.params_wf rfl (Params.lastTsInit_lt_of_wf h.params_wf) rfl rfl rfl rfl

/-- Settles O15. A step waits, or runs a command with its word taken off the port. -/
theorem stepKeepsInvariant : Obligations.StepKeepsInvariant := by
  unfold Obligations.StepKeepsInvariant
  intro s t h hstep
  rcases step_eq_next hstep with ⟨-, rfl⟩ | ⟨w, rest, i, -, -, he⟩
  · exact h.accept
  · have htaken : ({ s with cmds := rest } : State).Inv := h.of_sameItems (SameItems.refl s) rfl
    exact htaken.exec he

end Sys2Proof.Machine
end

section
/-! PROOFS. What a command reads: beside the six items and the parameters nothing decides its answer (spec/10_state.md
rule R20). The words at the port and the free counter are carried through every operation. -/

namespace Sys2Proof.Machine

/-- The state with other words at the port and another free counter: what two states that agree on R20's items and the
parameters still differ in once a command has begun. -/
def State.withPort (s : State) (cmds : List Nat) (freeIdx : Nat) : State := { s with cmds := cmds, freeIdx := freeIdx }

section
variable (s : State) (c : List Nat) (n : Nat)

@[simp] theorem State.withPort_seq : (s.withPort c n).seq = s.seq := rfl
@[simp] theorem State.withPort_cursor : (s.withPort c n).cursor = s.cursor := rfl
@[simp] theorem State.withPort_sum : (s.withPort c n).sum = s.sum := rfl
@[simp] theorem State.withPort_captureEn : (s.withPort c n).captureEn = s.captureEn := rfl
@[simp] theorem State.withPort_msgReady : (s.withPort c n).msgReady = s.msgReady := rfl
@[simp] theorem State.withPort_lastTs : (s.withPort c n).lastTs = s.lastTs := rfl
@[simp] theorem State.withPort_params : (s.withPort c n).params = s.params := rfl
@[simp] theorem State.withPort_resp : (s.withPort c n).resp = s.resp := rfl
@[simp] theorem State.withPort_outcome : (s.withPort c n).outcome = s.outcome := rfl

theorem State.sameItems_withPort : SameItems s (s.withPort c n) := SameItems.refl s

/-! ### The port and the counter are carried through each update -/

@[simp] theorem State.record_withPort (o : CmdOutcome) : (s.withPort c n).record o = (s.record o).withPort c n := rfl
@[simp] theorem State.respond_withPort (r : Resp) : (s.withPort c n).respond r = (s.respond r).withPort c n := rfl
@[simp] theorem State.setLastTs_withPort (ts : Nat) :
    (s.withPort c n).setLastTs ts = (s.setLastTs ts).withPort c n := rfl
@[simp] theorem State.emptySeq_withPort : (s.withPort c n).emptySeq = s.emptySeq.withPort c n := rfl
@[simp] theorem State.clearAll_withPort : (s.withPort c n).clearAll = s.clearAll.withPort c n := rfl
@[simp] theorem State.completeMsg_withPort : (s.withPort c n).completeMsg = s.completeMsg.withPort c n := rfl
@[simp] theorem State.consume_withPort : (s.withPort c n).consume = s.consume.withPort c n := rfl
@[simp] theorem State.rearm_withPort : (s.withPort c n).rearm = s.rearm.withPort c n := rfl
@[simp] theorem State.overFrame_withPort : (s.withPort c n).overFrame = s.overFrame := rfl

@[simp] theorem State.leaderReset_withPort (u : Quantum) :
    (s.withPort c n).leaderReset u = (s.leaderReset u).withPort c n := by
  unfold State.leaderReset
  split <;> rfl

@[simp] theorem State.settleAppend_withPort (u : Quantum) (e : Nat) :
    (s.withPort c n).settleAppend u e = (s.settleAppend u e).withPort c n := by
  unfold State.settleAppend
  rw [State.overFrame_withPort]
  split
  · rfl
  · split <;> rfl

@[simp] theorem State.appendEntry_withPort (v : Entry) :
    (s.withPort c n).appendEntry v = (s.appendEntry v).map (·.withPort c n) := by
  unfold State.appendEntry
  rw [State.withPort_seq, State.withPort_cursor]
  cases seqWrite s.seq s.cursor.toNat v <;> rfl

/-! ### The port and the counter are carried through the meanings of the commands -/

theorem appendUnit_withPort (u : Quantum) (e : Nat) :
    appendUnit (s.withPort c n) u e = (appendUnit s u e).map (·.withPort c n) := by
  unfold appendUnit
  rw [State.appendEntry_withPort]
  cases s.appendEntry u.bits with
  | error f => rfl
  | ok t => exact congrArg Except.ok (State.settleAppend_withPort t c n u e)

theorem admitEdge_withPort (ts : Nat) :
    admitEdge (s.withPort c n) ts = (admitEdge s ts).map (·.withPort c n) := by
  unfold admitEdge
  simp only [State.setLastTs_withPort, State.withPort_params, State.withPort_lastTs]
  cases classify (s.setLastTs ts).params (elapsed s.params.clkW ts s.lastTs) with
  | none => rfl
  | some u =>
    simp only [State.leaderReset_withPort, State.withPort_cursor]
    split
    · rfl
    · exact appendUnit_withPort ..

theorem decodeMsg_withPort :
    decodeMsg (s.withPort c n) = (decodeMsg s).map fun x => (x.1.withPort c n, x.2) := by
  unfold decodeMsg
  simp only [State.consume_withPort, State.withPort_seq]
  cases headerOk s.consume.seq with
  | error f => rfl
  | ok b =>
    cases b with
    | false => rfl
    | true =>
      cases compensate s.consume.seq with
      | error f => rfl
      | ok m =>
        change (demodulate m).bind _ = Except.map _ ((demodulate m).bind _)
        cases demodulate m <;> rfl

theorem pollMsg_withPort :
    pollMsg (s.withPort c n) = (pollMsg s).map fun x => (x.1.withPort c n, x.2) := by
  unfold pollMsg
  rw [State.withPort_msgReady, decodeMsg_withPort]
  split <;> rfl

end

/-- What `f` makes of the next state, where there is one. -/
def mapNext (f : State → State) : Host.Outcome State Fault Refusal → Host.Outcome State Fault Refusal
  | .next s => .next (f s)
  | .fault e => .fault e
  | .refused r => .refused r

/-- A command begins alike in two states with the same items and parameters, but for the port and the counter. -/
theorem State.accept_eq_withPort {s t : State} (h : SameItems s t) (hparams : t.params = s.params) :
    t.accept = s.accept.withPort t.cmds (t.freeIdx + 1) := by
  obtain ⟨hseq, hcursor, hsum, hen, hready, hts⟩ := h
  simp [State.accept, State.withPort, hseq, hcursor, hsum, hen, hready, hts, hparams]

/-- Two states with the same items and parameters get the same answer, each with its own port and counter (R20). -/
theorem exec_of_sameItems {s t : State} (i : Instr) (h : SameItems s t) (hparams : t.params = s.params) :
    exec i t = mapNext (·.withPort t.cmds (t.freeIdx + 1)) (exec i s) := by
  have haccept := State.accept_eq_withPort h hparams
  cases i with
  | nop => exact congrArg Host.Outcome.next haccept
  | edge ts =>
    simp only [exec, execEdge, haccept, admitEdge_withPort, State.withPort_params, State.withPort_captureEn]
    split
    · cases admitEdge s.accept (operandTs s.accept.params ts) <;> rfl
    · rfl
  | pollCode =>
    simp only [exec, execPollCode, haccept, pollMsg_withPort]
    cases pollMsg s.accept <;> rfl
  | pollFields =>
    simp only [exec, execPollFields, haccept, pollMsg_withPort]
    cases pollMsg s.accept <;> rfl
  | reset => exact congrArg (fun a => Host.Outcome.next a.clearAll) haccept

/-- Settles O19. -/
theorem nothingElsePersists : Obligations.NothingElsePersists := by
  unfold Obligations.NothingElsePersists
  intro s t i h hparams
  rw [exec_of_sameItems i h hparams]
  constructor
  · intro s' hs
    exact ⟨_, by rw [hs]; rfl, State.sameItems_withPort s' t.cmds (t.freeIdx + 1), rfl, rfl⟩
  · intro f hf
    rw [hf]
    rfl

end Sys2Proof.Machine
end

section
/-! PROOFS. SEQ as SeqRead and SeqWrite show it (spec/20_memory.md rule R51), and the frames of EDGE and of the polls
(rule R52): which entries, and which other items, each of them can change. -/

namespace Sys2Proof.Machine

/-! ### SeqRead and SeqWrite -/

/-- A read sees one entry only. -/
theorem seqRead_congr {m m' : Memory} {i : Nat} (h : m'.entry i = m.entry i) : seqRead m' i = seqRead m i := by
  unfold seqRead
  rw [h]

/-- A read of an entry that holds no value is the fault R21 demands. -/
theorem seqRead_of_no_value {m : Memory} {i : Nat} (hi : i < Config.cap) (h : m.entry i = none) :
    seqRead m i = .error (.seqReadNoValue i) := by
  simp [seqRead, hi, h]

/-- Settles O31. -/
theorem sequenceReadsWhatWasWritten : Obligations.SequenceReadsWhatWasWritten := by
  unfold Obligations.SequenceReadsWhatWasWritten
  intro m i v hm hi
  refine ⟨⟨m.insert i v, seqWrite_of_lt m v hi, Memory.wf_insert v hm hi, ?_, ?_⟩, seqRead_of_no_value hi⟩
  · exact seqRead_of_entry hi (Memory.entry_insert_self m i v)
  · exact fun j hj => seqRead_congr (Memory.entry_insert_of_ne m v hj)

/-! ### The frame of EDGE -/

@[simp] theorem State.settleAppend_seq (s : State) (u : Quantum) (e : Nat) : (s.settleAppend u e).seq = s.seq := by
  unfold State.settleAppend
  split
  · rfl
  · split <;> rfl

@[simp] theorem storeIndex_accept (s : State) (u : Quantum) : storeIndex s.accept u = storeIndex s u := by
  simp [storeIndex]

/-- An admitted EDGE stores at most where its unit is appended (R105 to R108). -/
theorem admitEdge_entry {s t : State} {ts a : Nat} (h : admitEdge s ts = .ok t)
    (ha : ∀ u, classify s.params (elapsed s.params.clkW ts s.lastTs) = some u → a ≠ storeIndex s u) :
    t.seq.entry a = s.seq.entry a := by
  rcases admitEdge_eq_ok h with ⟨-, rfl⟩ | ⟨u, hu, ⟨-, rfl⟩ | ⟨-, s', happ, rfl⟩⟩
  · rfl
  · simp
  · have hne : a ≠ ((s.setLastTs ts).leaderReset u).cursor.toNat := by simpa [storeIndex] using ha u hu
    rw [State.settleAppend_seq, State.appendEntry_entry happ, if_neg hne, State.leaderReset_seq, State.setLastTs_seq]

/-- No EDGE drives a response line (R70). -/
theorem execEdge_resp {s t : State} {ts : Nat} (h : execEdge ts s = .next t) : t.resp = .undriven := by
  rcases execEdge_eq_next.1 h with ⟨-, rfl⟩ | ⟨-, ha⟩
  · rfl
  · obtain ⟨-, hresp, -⟩ := admitEdge_outside ha
    exact hresp

/-- Settles O32. -/
theorem edgeStoresOneEntryOnly : Obligations.EdgeStoresOneEntryOnly := by
  unfold Obligations.EdgeStoresOneEntryOnly
  intro s t ts h
  obtain ⟨hout, -⟩ := exec_outside h
  refine ⟨hout, execEdge_resp h, fun a ha => ?_⟩
  rcases execEdge_eq_next.1 h with ⟨-, rfl⟩ | ⟨hen, hadmit⟩
  · rfl
  · exact admitEdge_entry (s := s.accept) hadmit fun u hu => by simpa using ha u hen hu

/-! ### The frame of the polls -/

/-- DECODE stores at most around the toggle boundary (R134). -/
theorem decodeMsg_entry {s t : State} {c : Option Code} {a : Nat} (h : decodeMsg s = .ok (t, c))
    (ha : ∀ j, toggleEntry s.seq = .ok (some j) → a ≠ j ∧ a ≠ j + 1) : t.seq.entry a = s.seq.entry a := by
  rcases decodeMsg_eq_ok.1 h with ⟨-, rfl, -⟩ | ⟨m, w, -, hm, -, rfl, -⟩
  · rfl
  · exact compensate_entry hm ha

/-- Settles O41. -/
theorem pollWritesAroundToggleOnly : Obligations.PollWritesAroundToggleOnly := by
  unfold Obligations.PollWritesAroundToggleOnly
  intro s t i hi h
  obtain ⟨hout, -⟩ := exec_outside h
  rcases exec_poll_cases hi h with ⟨-, r, rfl⟩ | ⟨hready, d, c, r, hd, rfl⟩
  · exact ⟨hout, rfl, fun a _ => rfl⟩
  · obtain ⟨-, -, -, -, hts, -⟩ := decodeMsg_frame hd
    exact ⟨hout, hts, fun a ha => decodeMsg_entry (s := s.accept) (t := d) hd (ha hready)⟩

end Sys2Proof.Machine
end

section
/-! PROOFS. Runs of commands (spec/20_memory.md rules R57, R59 to R61): the port's order, the buffered message before a
poll, and the poll that consumes it. -/

namespace Sys2Proof.Machine

/-! ### The accepted order -/

/-- The words not yet accepted are carried through a command, whatever it answers (R60). -/
theorem exec_with_cmds (i : Instr) (s : State) (c : List Nat) :
    exec i { s with cmds := c } = mapNext (fun t => { t with cmds := c }) (exec i s) := by
  rw [exec_of_sameItems (t := { s with cmds := c }) i (SameItems.refl s) rfl]
  cases h : exec i s with
  | next t =>
    obtain ⟨-, hfree⟩ := exec_outside h
    simp [mapNext, State.withPort, ← hfree]
  | fault f => rfl
  | refused r => rfl

/-- The word of a well-formed command decodes to it (R71, R73). -/
theorem decode_encode_of_wellFormed {clkW : Nat} {i : Instr} (h : WellFormed clkW i = true) :
    decode clkW (encode clkW i) = .ok i := by
  obtain ⟨hlt, hop, hts⟩ := Laws.EncodeFits.of_wellFormed i clkW h
  refine decode_eq_ok_iff.2 ⟨hlt, hop, ?_⟩
  rintro ts rfl
  exact hts.symm

/-- Settles O10, by induction on the commands: the first step takes the first word, and the words behind it are carried
through its command. -/
theorem runFollowsAcceptedOrder : Obligations.RunFollowsAcceptedOrder := by
  unfold Obligations.RunFollowsAcceptedOrder
  intro is
  induction is with
  | nil =>
    intro s rest _ hcmds
    simp only [List.map_nil, List.nil_append] at hcmds
    subst hcmds
    rfl
  | cons i is ih =>
    intro s rest hwf hcmds
    have hstep : step s = exec i { s with cmds := is.map (encode s.params.clkW) ++ rest } :=
      step_of_decode_ok hcmds (decode_encode_of_wellFormed (hwf i (by simp)))
    simp only [List.length_cons, Host.Core.run, core, execAll]
    rw [hstep, exec_with_cmds, exec_with_cmds i s rest]
    cases h : exec i s with
    | next t =>
      obtain ⟨⟨hparams, -⟩, -⟩ := exec_outside h
      exact ih { t with cmds := is.map (encode s.params.clkW) ++ rest } rest
        (fun j hj => by simpa [hparams] using hwf j (by simp [hj])) (by simp [hparams])
    | fault f => rfl
    | refused r => rfl

/-! ### The buffered message -/

theorem execAll_cons_of_next {i : Instr} {s t : State} (is : List Instr) (h : exec i s = .next t) :
    execAll (i :: is) s = execAll is t := by
  simp only [execAll, h]

theorem SameItems.captureEn {s t : State} (h : SameItems s t) : t.captureEn = s.captureEn := by
  obtain ⟨-, -, -, hen, -, -⟩ := h
  exact hen

/-- While CAPTURE_EN = 0, EDGE and NOP complete and change no item (R104, R170). -/
theorem exec_edge_or_nop_of_disabled {i : Instr} {s : State} (hi : i = .nop ∨ ∃ ts, i = .edge ts)
    (hen : s.captureEn = false) : ∃ t, exec i s = .next t ∧ SameItems s t := by
  rcases hi with rfl | ⟨ts, rfl⟩
  · exact ⟨_, rfl, sameItems_accept s⟩
  · exact ⟨_, execEdge_of_disabled hen, (sameItems_accept s).trans (sameItems_record ..)⟩

/-- While CAPTURE_EN = 0, no sequence of EDGE and NOP changes an item, CAPTURE_EN among them (R59). -/
theorem execAll_of_disabled {is : List Instr} {s : State} (hen : s.captureEn = false)
    (his : ∀ i ∈ is, i = .nop ∨ ∃ ts, i = .edge ts) : ∃ t, execAll is s = .next t ∧ SameItems s t := by
  induction is generalizing s with
  | nil => exact ⟨s, rfl, SameItems.refl s⟩
  | cons i is ih =>
    obtain ⟨t, ht, hst⟩ := exec_edge_or_nop_of_disabled (his i (by simp)) hen
    obtain ⟨u, hu, htu⟩ := ih (hst.captureEn.trans hen) fun j hj => his j (by simp [hj])
    exact ⟨u, by rw [execAll_cons_of_next is ht, hu], hst.trans htu⟩

/-- Settles O46. By I1 capture is off while a message is buffered. -/
theorem handOffKeepsMessage : Obligations.HandOffKeepsMessage := by
  unfold Obligations.HandOffKeepsMessage
  intro is s h hready his
  exact execAll_of_disabled (h.not_captureEn_of_ready hready) his

/-! ### The poll that consumes it -/

/-- Without a message POLL_CODE answers none and records NO_MESSAGE (R130). -/
theorem exec_pollCode_of_not_ready {s : State} (h : s.msgReady = false) :
    exec .pollCode s = .next ((s.accept.record .noMessage).respond (.code none)) :=
  execPollCode_eq_next.2 ⟨_, _, pollMsg_eq_ok.2 (.inl ⟨h, rfl, rfl⟩), rfl⟩

/-- Without a message POLL_FIELDS answers none and records NO_MESSAGE (R131). -/
theorem exec_pollFields_of_not_ready {s : State} (h : s.msgReady = false) :
    exec .pollFields s = .next ((s.accept.record .noMessage).respond (.fields none)) :=
  execPollFields_eq_next.2 ⟨_, _, pollMsg_eq_ok.2 (.inl ⟨h, rfl, rfl⟩), rfl⟩

/-- A poll leaves capture enabled and no message: it re-arms after a message, and without one I1 says so (R136). -/
theorem exec_poll_flags {i : Instr} {s t : State} (hs : s.Inv) (hi : i = .pollCode ∨ i = .pollFields)
    (h : exec i s = .next t) : t.captureEn = true ∧ t.msgReady = false := by
  rcases exec_poll_cases hi h with ⟨hready, r, rfl⟩ | ⟨-, d, c, r, hd, rfl⟩
  · exact ⟨hs.captureEn_of_not_ready hready, hready⟩
  · obtain ⟨-, -, hready, hen, -⟩ := decodeMsg_frame hd
    exact ⟨hen, hready⟩

/-- Settles O48. -/
theorem pollRearmsAndConsumesOnce : Obligations.PollRearmsAndConsumesOnce := by
  unfold Obligations.PollRearmsAndConsumesOnce
  intro s t i hs hi h
  obtain ⟨hen, hready⟩ := exec_poll_flags hs hi h
  exact ⟨hen, hready, ⟨_, exec_pollCode_of_not_ready hready, SameItems.refl t, rfl⟩,
    ⟨_, exec_pollFields_of_not_ready hready, SameItems.refl t, rfl⟩⟩

end Sys2Proof.Machine
end

section
/-! PROOFS. I6 of spec/10_state.md rule R32 (spec/20_memory.md rule R65): no command reads an entry of SEQ at CURSOR or
above. EDGE reads none; the loops of DECODE end below the cursor of a buffered message, whose units pass 50. -/

namespace Sys2Proof.Machine

/-- The two sequences hold the same below entry `n`. -/
def SameBelow (n : Nat) (m m' : Memory) : Prop := ∀ k < n, m'.entry k = m.entry k

/-- The state with another sequence. -/
def State.withSeq (s : State) (m : Memory) : State := { s with seq := m }

/-! ### What does not touch SEQ does the same with another sequence -/

section
variable (s : State) (m : Memory)

@[simp] theorem State.withSeq_cursor : (s.withSeq m).cursor = s.cursor := rfl
@[simp] theorem State.withSeq_lastTs : (s.withSeq m).lastTs = s.lastTs := rfl
@[simp] theorem State.withSeq_params : (s.withSeq m).params = s.params := rfl

@[simp] theorem State.record_withSeq (o : CmdOutcome) : (s.withSeq m).record o = (s.record o).withSeq m := rfl
@[simp] theorem State.setLastTs_withSeq (ts : Nat) : (s.withSeq m).setLastTs ts = (s.setLastTs ts).withSeq m := rfl
@[simp] theorem State.emptySeq_withSeq : (s.withSeq m).emptySeq = s.emptySeq.withSeq m := rfl

@[simp] theorem State.leaderReset_withSeq (u : Quantum) :
    (s.withSeq m).leaderReset u = (s.leaderReset u).withSeq m := by
  unfold State.leaderReset
  split <;> rfl

@[simp] theorem State.settleAppend_withSeq (u : Quantum) (e : Nat) :
    (s.withSeq m).settleAppend u e = (s.settleAppend u e).withSeq m := by
  unfold State.settleAppend
  rw [show (s.withSeq m).overFrame = s.overFrame from rfl]
  split
  · rfl
  · split <;> rfl

end

@[simp] theorem State.settleAppend_cursor (s : State) (u : Quantum) (e : Nat) :
    (s.settleAppend u e).cursor = s.cursor := by
  unfold State.settleAppend
  split
  · rfl
  · split <;> rfl

/-! ### SEQ's accesses -/

theorem SameBelow.insert {n : Nat} {m m' : Memory} (h : SameBelow n m m') (i : Nat) (v : Entry) :
    SameBelow n (m.insert i v) (m'.insert i v) := by
  intro k hk
  rw [Memory.entry_insert, Memory.entry_insert, h k hk]

theorem SameBelow.seqRead_eq {n : Nat} {m m' : Memory} (h : SameBelow n m m') {i : Nat} (hi : i < n) :
    seqRead m' i = seqRead m i :=
  seqRead_congr (h i hi)

/-- A decrement below `n` answers alike, and the sequences it leaves hold the same below `n`. -/
theorem SameBelow.seqDecrement_ok {n : Nat} {m m' t : Memory} (h : SameBelow n m m') {i : Nat} (hi : i < n)
    (ht : seqDecrement m i = .ok t) : ∃ t', seqDecrement m' i = .ok t' ∧ SameBelow n t t' := by
  obtain ⟨hcap, v, hv, hzero, rfl⟩ := seqDecrement_eq_ok.1 ht
  exact ⟨_, seqDecrement_eq_ok.2 ⟨hcap, v, (h i hi).trans hv, hzero, rfl⟩, h.insert i _⟩

/-! ### EDGE -/

theorem admitEdge_of_invalid {s : State} {ts : Nat}
    (h : classify s.params (elapsed s.params.clkW ts s.lastTs) = none) :
    admitEdge s ts =
      .ok ((s.setLastTs ts).emptySeq.record (.noiseReset (elapsed s.params.clkW ts s.lastTs))) := by
  simp [admitEdge, h]

theorem admitEdge_of_full {s : State} {ts : Nat} {u : Quantum}
    (h : classify s.params (elapsed s.params.clkW ts s.lastTs) = some u)
    (hfull : ((s.setLastTs ts).leaderReset u).cursor.toNat = Config.cap) :
    admitEdge s ts =
      .ok (((s.setLastTs ts).leaderReset u).emptySeq.record
        (.overflowReset (elapsed s.params.clkW ts s.lastTs))) := by
  simp only [admitEdge, State.setLastTs_params, h, hfull, if_true]

theorem admitEdge_of_unit {s : State} {ts : Nat} {u : Quantum}
    (h : classify s.params (elapsed s.params.clkW ts s.lastTs) = some u)
    (hfull : ((s.setLastTs ts).leaderReset u).cursor.toNat ≠ Config.cap) :
    admitEdge s ts = appendUnit ((s.setLastTs ts).leaderReset u) u (elapsed s.params.clkW ts s.lastTs) := by
  simp only [admitEdge, State.setLastTs_params, h, hfull, if_false]

/-- The append stores at the cursor, so what stands there and above does not matter (R108). -/
theorem State.appendEntry_withSeq {s t : State} {m : Memory} {v : Entry} (hm : SameBelow s.cursor.toNat s.seq m)
    (h : s.appendEntry v = .ok t) :
    ∃ m', (s.withSeq m).appendEntry v = .ok (t.withSeq m') ∧ SameBelow t.cursor.toNat t.seq m' := by
  have hcursor := State.appendEntry_cursor h
  have hentry := State.appendEntry_entry h
  obtain ⟨hcap, rfl⟩ := State.appendEntry_eq_ok.1 h
  refine ⟨m.insert s.cursor.toNat v, State.appendEntry_eq_ok.2 ⟨hcap, rfl⟩, fun k hk => ?_⟩
  rw [hentry, Memory.entry_insert]
  split
  · rfl
  · exact hm k (by omega)

/-- EDGE reads no entry: the registers alone decide which of its branches it takes (R103 to R109). -/
theorem admitEdge_withSeq {s t : State} {m : Memory} {ts : Nat} (hm : SameBelow s.cursor.toNat s.seq m)
    (h : admitEdge s ts = .ok t) :
    ∃ m', admitEdge (s.withSeq m) ts = .ok (t.withSeq m') ∧ SameBelow t.cursor.toNat t.seq m' := by
  rcases admitEdge_eq_ok h with ⟨hc, rfl⟩ | ⟨u, hc, ⟨hfull, rfl⟩ | ⟨hfull, s', happ, rfl⟩⟩
  · exact ⟨m, admitEdge_of_invalid hc, by simp [SameBelow]⟩
  · refine ⟨m, ?_, by simp [SameBelow]⟩
    rw [admitEdge_of_full (s := s.withSeq m) hc (by simpa using hfull)]
    simp
  · have hlead : SameBelow ((s.setLastTs ts).leaderReset u).cursor.toNat ((s.setLastTs ts).leaderReset u).seq m := by
      intro k hk
      rw [State.leaderReset_seq, State.setLastTs_seq]
      refine hm k ?_
      by_cases hu : u = .u6
      · simp [hu] at hk
      · simpa [hu] using hk
    obtain ⟨m', happ', hsame⟩ := State.appendEntry_withSeq hlead happ
    refine ⟨m', ?_, by simpa using hsame⟩
    rw [admitEdge_of_unit (s := s.withSeq m) hc (by simpa using hfull)]
    exact appendUnit_eq_ok.2 ⟨_, by simpa using happ', by simp⟩

/-! ### DECODE of a buffered message -/

/-- The header check reads the first three entries (R133). -/
theorem SameBelow.headerOk_eq {n : Nat} {m m' : Memory} (h : SameBelow n m m') (hn : 3 ≤ n) :
    headerOk m' = headerOk m := by
  unfold headerOk
  rw [h.seqRead_eq (by omega), h.seqRead_eq (by omega), h.seqRead_eq (by omega)]

/-- COMPENSATE's walk stops at offset 18, so it reads below `n` only where the units below `n` pass 18 (R134). -/
theorem SameBelow.findToggle_eq {n : Nat} {m m' : Memory} (h : SameBelow n m m')
    (hsum : Config.toggleOff < prefixSum m n) (fuel idx : Nat) : findToggle m' fuel idx (prefixSum m idx) = findToggle m fuel idx (prefixSum m idx) := by
  induction fuel generalizing idx with
  | zero => rfl
  | succ fuel ih =>
    rw [findToggle_succ, findToggle_succ]
    split
    · next hguard =>
      have hidx : idx < n := by
        by_contra hge
        have := prefixSum_mono m (Nat.le_of_not_lt hge)
        omega
      rw [h.seqRead_eq hidx]
      cases hr : seqRead m idx with
      | error f => rfl
      | ok v =>
        have hnext : prefixSum m (idx + 1) = prefixSum m idx + v.toNat := by
          rw [prefixSum_succ, entryUnits_of_entry (seqRead_eq_ok.1 hr).2]
        simp only [Except.bind, ← hnext, ih]
    · rfl

theorem SameBelow.toggleEntry_eq {n : Nat} {m m' : Memory} (h : SameBelow n m m')
    (hsum : Config.toggleOff < prefixSum m n) : toggleEntry m' = toggleEntry m :=
  h.findToggle_eq hsum Config.cap 0

/-- The compensation reads and writes below `n` only where the units below `n` pass 18 (R134). -/
theorem SameBelow.compensate_ok {n : Nat} {m m' t : Memory} (h : SameBelow n m m')
    (hsum : Config.toggleOff < prefixSum m n) (ht : compensate m = .ok t) :
    ∃ t', compensate m' = .ok t' ∧ SameBelow n t t' := by
  rcases compensate_eq_ok.1 ht with ⟨hnone, rfl⟩ | ⟨j, d, hj, hd, ht⟩
  · exact ⟨m', compensate_eq_ok.2 (.inl ⟨(h.toggleEntry_eq hsum).trans hnone, rfl⟩), h⟩
  · have hlt : j + 1 < n := by
      obtain ⟨-, -, heq⟩ := toggleEntry_eq_some hj
      by_contra hge
      have := prefixSum_mono m (Nat.le_of_not_lt hge)
      omega
    obtain ⟨d', hd', hsame⟩ := h.seqDecrement_ok (by omega) hd
    obtain ⟨t', ht', hsame'⟩ := hsame.seqDecrement_ok hlt ht
    exact ⟨t', compensate_eq_ok.2 (.inr ⟨j, d', (h.toggleEntry_eq hsum).trans hj, hd', ht'⟩), hsame'⟩

/-- A turn that DEMODULATE's loop takes reads a value and goes on from it (R135). -/
theorem demodLoop_succ_eq_ok {m : Memory} {fuel : Nat} {w w' : Walk} :
    demodLoop m (fuel + 1) w = .ok w' ↔
      ((w.off < Config.demodStop ∧ w.idx < Config.cap) ∧
          ∃ v, seqRead m w.idx = .ok v ∧ demodLoop m fuel (w.turn v) = .ok w') ∨
        (¬(w.off < Config.demodStop ∧ w.idx < Config.cap) ∧ w = w') := by
  rw [demodLoop_succ]
  split
  · next hguard => simp only [hguard, not_true, false_and, or_false, true_and]; exact except_bind_eq_ok
  · next hguard => simp [hguard]

theorem demodLoop_idx_le {m : Memory} {fuel : Nat} {w w' : Walk} (h : demodLoop m fuel w = .ok w') :
    w.idx ≤ w'.idx := by
  induction fuel generalizing w with
  | zero => obtain rfl := Except.ok.inj h; exact Nat.le_refl _
  | succ fuel ih =>
    rcases demodLoop_succ_eq_ok.1 h with ⟨-, v, -, hnext⟩ | ⟨-, rfl⟩
    · exact Nat.le_of_succ_le (ih hnext)
    · exact Nat.le_refl _

/-- DEMODULATE's loop reads the entries below the IDX it ends with only (R135). -/
theorem SameBelow.demodLoop_ok {n fuel : Nat} {m m' : Memory} {w w' : Walk} (h : SameBelow n m m')
    (hw : demodLoop m fuel w = .ok w') (hn : w'.idx ≤ n) : demodLoop m' fuel w = .ok w' := by
  induction fuel generalizing w with
  | zero => exact hw
  | succ fuel ih =>
    refine demodLoop_succ_eq_ok.2 ?_
    rcases demodLoop_succ_eq_ok.1 hw with ⟨hguard, v, hv, hnext⟩ | hstop
    · have hidx : w.idx + 1 ≤ w'.idx := demodLoop_idx_le hnext
      exact .inl ⟨hguard, v, (h.seqRead_eq (by omega)).trans hv, ih hnext⟩
    · exact .inr hstop

/-- A decrement below `n` takes one unit from the sum of the first `n` entries. -/
theorem seqDecrement_prefixSum {m t : Memory} {i : Nat} (h : seqDecrement m i = .ok t) (n : Nat) :
    prefixSum t n + (if i < n then 1 else 0) = prefixSum m n := by
  obtain ⟨-, v, hv, hzero, rfl⟩ := seqDecrement_eq_ok.1 h
  induction n with
  | zero => simp
  | succ n ih =>
    rw [prefixSum_succ, prefixSum_succ]
    by_cases hn : n = i
    · subst hn
      have hunits : entryUnits (m.insert n (v - 1#3)) n + 1 = entryUnits m n := by
        rw [entryUnits_of_entry (Memory.entry_insert_self ..), entryUnits_of_entry hv]
        bv_omega
      rw [if_neg (lt_irrefl n)] at ih
      rw [if_pos (Nat.lt_succ_self n)]
      omega
    · have hunits : entryUnits (m.insert i (v - 1#3)) n = entryUnits m n := by
        rw [entryUnits, entryUnits, Memory.entry_insert_of_ne _ _ hn]
      split at ih <;> split <;> omega

/-- The compensation takes at most two units from the sum of the first `n` entries (R134). -/
theorem compensate_prefixSum {m t : Memory} (h : compensate m = .ok t) (n : Nat) :
    prefixSum t n ≤ prefixSum m n ∧ prefixSum m n ≤ prefixSum t n + 2 := by
  rcases compensate_eq_ok.1 h with ⟨-, rfl⟩ | ⟨j, d, -, hd, ht⟩
  · omega
  · have hfirst := seqDecrement_prefixSum hd n
    have hsecond := seqDecrement_prefixSum ht n
    split at hfirst <;> split at hsecond <;> omega

/-- An entry that holds a value holds one after the compensation (R134). -/
theorem compensate_entry_some {m t : Memory} (h : compensate m = .ok t) {k : Nat} (hk : ∃ v, m.entry k = some v) :
    ∃ v, t.entry k = some v := by
  rcases compensate_eq_ok.1 h with ⟨-, rfl⟩ | ⟨j, d, -, hd, ht⟩
  · exact hk
  · obtain ⟨-, a, -, -, rfl⟩ := seqDecrement_eq_ok.1 hd
    obtain ⟨-, b, -, -, rfl⟩ := seqDecrement_eq_ok.1 ht
    rw [Memory.entry_insert, Memory.entry_insert]
    split
    · exact ⟨_, rfl⟩
    · split
      · exact ⟨_, rfl⟩
      · exact hk

/-- Of a buffered message with a valid header DEMODULATE ends at or below the cursor: of the message's 51 units the
compensation leaves at least 49, where it stops (R134, R135). -/
theorem State.Inv.demodulate_idx_le {s : State} {m : Memory} {w : Walk} (hs : s.Inv) (hready : s.msgReady = true)
    (hhead : HeaderHolds s.seq) (hm : compensate s.seq = .ok m) (hw : demodulate m = .ok w) :
    w.idx ≤ s.cursor.toNat := by
  obtain ⟨hlong, -, hcursor⟩ := hs.message_length hready
  have hcap : s.cursor.toNat ≤ 44 := hs.cursor_le
  have hvalues : ∀ k < s.cursor.toNat, ∃ v, m.entry k = some v := fun k hk =>
    have ⟨v, hv, _⟩ := hs.entries k hk
    compensate_entry_some hm ⟨v, hv⟩
  have hreach : 49 ≤ 8 + (prefixSum m s.cursor.toNat - prefixSum m 2) := by
    have htwo : prefixSum s.seq 2 = 8 := by
      obtain ⟨hzero, hone, -⟩ := hhead
      simp [prefixSum_succ, entryUnits_of_entry hzero, entryUnits_of_entry hone]
    have hstart := (compensate_prefixSum hm 2).1
    have hleft := (compensate_prefixSum hm s.cursor.toNat).2
    omega
  obtain ⟨w', hw', -, hle, -⟩ := demodLoop_reaches_stop (w := ⟨8, 2, true, 0#32, 0⟩) (fuel := 44)
    hs.cursor_le hvalues (show 2 ≤ _ by omega) (show _ ≤ 2 + 44 by omega) hreach
  obtain rfl := Except.ok.inj (hw.symm.trans hw')
  exact hle

/-- DECODE of a buffered message gives the same code whatever stands at the cursor and above (R65). -/
theorem decodeMsg_withSeq {s t : State} {m : Memory} {c : Option Code} (hs : s.Inv) (hready : s.msgReady = true)
    (hm : SameBelow s.cursor.toNat s.seq m) (h : decodeMsg s = .ok (t, c)) :
    ∃ m', decodeMsg (s.withSeq m) = .ok (t.withSeq m', c) := by
  obtain ⟨hlong, -, hcursor⟩ := hs.message_length hready
  have hhead : headerOk m = headerOk s.seq := hm.headerOk_eq (by omega)
  rcases decodeMsg_eq_ok.1 h with ⟨hfail, rfl, rfl⟩ | ⟨d, w, hok, hd, hw, rfl, rfl⟩
  · exact ⟨m, decodeMsg_eq_ok.2 (.inl ⟨hhead.trans hfail, rfl, rfl⟩)⟩
  · obtain ⟨d', hd', hsame⟩ := hm.compensate_ok (show 18 < _ by omega) hd
    have hw' : demodulate d' = .ok w :=
      hsame.demodLoop_ok hw (hs.demodulate_idx_le hready (headerOk_eq_true.1 hok) hd hw)
    exact ⟨d', decodeMsg_eq_ok.2 (.inr ⟨d', w, hhead.trans hok, hd', hw', rfl, rfl⟩)⟩

/-! ### The commands -/

/-- A poll answers the same whatever stands at the cursor and above; after it either nothing changed or no entry is
below the cursor (R130, R132). -/
theorem pollMsg_withSeq {s t : State} {m : Memory} {c : Option Code} (hs : s.Inv)
    (hm : SameBelow s.cursor.toNat s.seq m) (h : pollMsg s = .ok (t, c)) :
    ∃ m', pollMsg (s.withSeq m) = .ok (t.withSeq m', c) ∧ SameBelow t.cursor.toNat t.seq m' := by
  rcases pollMsg_eq_ok.1 h with ⟨hready, rfl, rfl⟩ | ⟨hready, hd⟩
  · exact ⟨m, pollMsg_eq_ok.2 (.inl ⟨hready, rfl, rfl⟩), hm⟩
  · obtain ⟨m', hd'⟩ := decodeMsg_withSeq hs hready hm hd
    obtain ⟨hcursor, -⟩ := decodeMsg_frame hd
    exact ⟨m', pollMsg_eq_ok.2 (.inr ⟨hready, hd'⟩), by simp [SameBelow, hcursor]⟩

/-- A command that answers gives the same answer from a sequence that differs at the cursor and above, but for entries
at the new cursor and above (I6). -/
theorem exec_withSeq {i : Instr} {s t : State} {m : Memory} (hs : s.Inv) (hm : SameBelow s.cursor.toNat s.seq m)
    (h : exec i s = .next t) :
    ∃ m', exec i (s.withSeq m) = .next (t.withSeq m') ∧ SameBelow t.cursor.toNat t.seq m' := by
  cases i with
  | nop =>
    obtain rfl := Host.Outcome.next.inj h
    exact ⟨m, rfl, hm⟩
  | edge ts =>
    rcases execEdge_eq_next.1 h with ⟨hen, rfl⟩ | ⟨hen, ha⟩
    · exact ⟨m, execEdge_eq_next.2 (.inl ⟨hen, rfl⟩), hm⟩
    · obtain ⟨m', ha', hsame⟩ := admitEdge_withSeq (s := s.accept) hm ha
      exact ⟨m', execEdge_eq_next.2 (.inr ⟨hen, ha'⟩), hsame⟩
  | pollCode =>
    obtain ⟨d, c, hp, rfl⟩ := execPollCode_eq_next.1 h
    obtain ⟨m', hp', hsame⟩ := pollMsg_withSeq hs.accept hm hp
    exact ⟨m', execPollCode_eq_next.2 ⟨_, c, hp', rfl⟩, hsame⟩
  | pollFields =>
    obtain ⟨d, c, hp, rfl⟩ := execPollFields_eq_next.1 h
    obtain ⟨m', hp', hsame⟩ := pollMsg_withSeq hs.accept hm hp
    exact ⟨m', execPollFields_eq_next.2 ⟨_, c, hp', rfl⟩, hsame⟩
  | reset =>
    obtain rfl := Host.Outcome.next.inj h
    exact ⟨[], rfl, by simp [SameBelow]⟩

/-- Settles O18. That the other sequence is canonical is not needed. -/
theorem staleEntriesAreNeverRead : Obligations.StaleEntriesAreNeverRead := by
  unfold Obligations.StaleEntriesAreNeverRead
  intro s t m i hs _ hm h
  obtain ⟨m', hu, hsame⟩ := exec_withSeq hs hm h
  exact ⟨t.withSeq m', hu, rfl, rfl, rfl, rfl, rfl, rfl, rfl, hsame⟩

end Sys2Proof.Machine
end

section
/-! PROOFS. The command word (spec/30_encoding.md rules R71 to R74): what the encoder writes is what the decoder reads,
which bits it reads, and the opcode table at CLK_W = 32. -/

namespace Sys2Proof.Machine

/-! ### The encoder's words -/

/-- Settles O1: the encoded word fits the port and carries the command's op and operand in their fields. -/
theorem decodeOfEncodeIsSame : Obligations.DecodeOfEncodeIsSame := by
  unfold Obligations.DecodeOfEncodeIsSame
  intro clkW i h
  exact decode_encode_of_wellFormed h

/-! ### The two fields of a word -/

theorem opField_of_layout {clkW op ts : Nat} (h : ts < 2 ^ clkW) : opField clkW (op * 2 ^ clkW + ts) = op := by
  rw [opField, Nat.mul_comm, Nat.mul_add_div (Nat.two_pow_pos _), Nat.div_eq_of_lt h, Nat.add_zero]

theorem layout_lt {clkW op ts : Nat} (hop : op < 8) (h : ts < 2 ^ clkW) : op * 2 ^ clkW + ts < 2 ^ (clkW + 3) := by
  have hfits : (op + 1) * 2 ^ clkW ≤ 8 * 2 ^ clkW := Nat.mul_le_mul_right _ (by omega)
  rw [Nat.add_mul] at hfits
  rw [Nat.pow_add]
  omega

/-- A word is laid out from its two fields: no bit lies outside them (R71). -/
theorem layout_fields (clkW w : Nat) : opField clkW w * 2 ^ clkW + tsField clkW w = w :=
  Nat.div_add_mod' w (2 ^ clkW)

/-! ### What an accepted word says -/

/-- The decoder gives EDGE an operand of CLK_W bits (R72). -/
theorem wellFormed_of_decode {clkW w : Nat} {i : Instr} (h : decode clkW w = .ok i) : WellFormed clkW i = true := by
  obtain ⟨-, -, hts⟩ := decode_eq_ok_iff.1 h
  cases i with
  | edge ts =>
    have hlt : tsField clkW w < 2 ^ clkW := Nat.mod_lt _ (Nat.two_pow_pos _)
    simpa [WellFormed, hts ts rfl] using hlt
  | nop | pollCode | pollFields | reset => rfl

/-- An accepted EDGE word is the one its command is assembled to. -/
theorem encode_of_decode_edge {clkW w ts : Nat} (h : decode clkW w = .ok (.edge ts)) : encode clkW (.edge ts) = w := by
  obtain ⟨-, hop, hts⟩ := decode_eq_ok_iff.1 h
  rw [encode, ← hop, tsOf, hts ts rfl, layout_fields]

/-- Settles O2. -/
theorem acceptedWordReencodes : Obligations.AcceptedWordReencodes := by
  unfold Obligations.AcceptedWordReencodes
  intro clkW w i h
  have hwf := wellFormed_of_decode h
  obtain ⟨-, hop, -⟩ := decode_eq_ok_iff.1 h
  refine ⟨hwf, decode_encode_of_wellFormed hwf, ?_, ?_⟩
  · rw [opField_encode (tsOf_lt_of_wellFormed hwf), hop]
  · rintro ⟨ts, rfl⟩
    exact encode_of_decode_edge h

/-! ### The bits the decoder reads -/

/-- Two words of the port with one op field decode alike, unless the op is EDGE's (R71). -/
theorem decode_eq_of_opField_eq {clkW w w' : Nat} (hw : w < 2 ^ (clkW + 3)) (hw' : w' < 2 ^ (clkW + 3))
    (hop : opField clkW w = opField clkW w') (hne : opField clkW w ≠ 1) : decode clkW w = decode clkW w' := by
  cases h : decode clkW w' with
  | ok i =>
    obtain ⟨-, hi, -⟩ := decode_eq_ok_iff.1 h
    refine decode_eq_ok_iff.2 ⟨hw, hop.trans hi, ?_⟩
    rintro ts rfl
    exact absurd (hop.trans hi) hne
  | error e =>
    cases e with
    | reservedOp op =>
      obtain ⟨-, hi, hge⟩ := decode_eq_reservedOp.1 h
      exact decode_eq_reservedOp.2 ⟨hw, hi.trans hop.symm, hge⟩
    | wordTooWide => exact absurd hw' (Nat.not_lt.2 (decode_eq_wordTooWide.1 h))

/-- Settles O3: the two words have one op field, and it is not EDGE's. -/
theorem ignoredTimestampSelectsSame : Obligations.IgnoredTimestampSelectsSame := by
  unfold Obligations.IgnoredTimestampSelectsSame
  intro clkW op ts ts' hop hne hts hts'
  have hfield := opField_of_layout (op := op) hts
  have hfield' := opField_of_layout (op := op) hts'
  exact decode_eq_of_opField_eq (layout_lt hop hts) (layout_lt hop hts') (hfield.trans hfield'.symm)
    (by rwa [hfield])

/-! ### The opcode table -/

/-- Every row of the table is a command's: its mnemonic, the mask of the three op bits, and its op in their place. -/
theorem row_of_mem_opcodeTable {row : OpcodeRow} (h : row ∈ opcodeTable) :
    ∃ i, row = ⟨mnemonic i, 7 * 2 ^ 32, opOf i * 2 ^ 32⟩ := by
  simp only [opcodeTable, List.mem_cons, List.not_mem_nil, or_false] at h
  obtain rfl | rfl | rfl | rfl | rfl := h
  · exact ⟨.nop, rfl⟩
  · exact ⟨.edge 0, rfl⟩
  · exact ⟨.pollCode, rfl⟩
  · exact ⟨.pollFields, rfl⟩
  · exact ⟨.reset, rfl⟩

/-- The rows' mask keeps the op field of a 35-bit word and clears its `ts`. -/
theorem and_opMask {w : Nat} (h : w < 2 ^ 35) : w &&& 7 * 2 ^ 32 = opField 32 w * 2 ^ 32 := by
  have hhigh : (w &&& 7 * 2 ^ 32) / 2 ^ 32 = w / 2 ^ 32 := by
    rw [Nat.and_div_two_pow, Nat.mul_div_cancel _ (Nat.two_pow_pos 32)]
    exact (Nat.and_two_pow_sub_one_eq_mod _ 3).trans (Nat.mod_eq_of_lt (by omega))
  have hlow : (w &&& 7 * 2 ^ 32) % 2 ^ 32 = 0 := by
    rw [Nat.and_mod_two_pow, Nat.mul_mod_left, Nat.and_zero]
  rw [opField, ← hhigh, Nat.div_mul_cancel (Nat.dvd_of_mod_eq_zero hlow)]

/-- A mnemonic names an op (R73). -/
theorem mnemonic_eq_iff {i j : Instr} : mnemonic i = mnemonic j ↔ opOf i = opOf j := by
  cases i <;> cases j <;> simp [mnemonic, opOf]

/-- A word of the port decodes to a command with the op of `i` exactly where its op field holds it. -/
theorem exists_decode_opOf_iff {clkW w : Nat} {i : Instr} (hw : w < 2 ^ (clkW + 3)) :
    (∃ j, decode clkW w = .ok j ∧ opOf j = opOf i) ↔ opField clkW w = opOf i := by
  constructor
  · rintro ⟨j, hj, hop⟩
    obtain ⟨-, hfield, -⟩ := decode_eq_ok_iff.1 hj
    exact hfield.trans hop
  · intro hfield
    cases h : decode clkW w with
    | ok j =>
      obtain ⟨-, hj, -⟩ := decode_eq_ok_iff.1 h
      exact ⟨j, rfl, hj.symm.trans hfield⟩
    | error e =>
      have hlt := opOf_lt i
      cases e with
      | reservedOp op => have := decode_eq_reservedOp.1 h; omega
      | wordTooWide => have := decode_eq_wordTooWide.1 h; omega

/-- Settles O4: both sides say that the op field holds the row's op. -/
theorem opcodeTableAgreesWithDecoder : Obligations.OpcodeTableAgreesWithDecoder := by
  unfold Obligations.OpcodeTableAgreesWithDecoder
  intro row hrow w hw
  obtain ⟨i, rfl⟩ := row_of_mem_opcodeTable hrow
  simp only [mnemonic_eq_iff]
  rw [exists_decode_opOf_iff hw, and_opMask hw, Nat.mul_left_inj (by decide)]

/-- Settles O5, by evaluating the decoder on each word. -/
theorem writtenWordsDecode : Obligations.WrittenWordsDecode := by
  unfold Obligations.WrittenWordsDecode
  decide

/-! ### The word at the port -/

/-- Settles O6. -/
theorem reservedOpIsRefused : Obligations.ReservedOpIsRefused := by
  unfold Obligations.ReservedOpIsRefused
  intro s op ts rest hop hts hcmds
  have hdec : decode s.params.clkW (op * 2 ^ s.params.clkW + ts) = .error (.reservedOp op) :=
    decode_eq_reservedOp.2 ⟨layout_lt (by omega) hts, (opField_of_layout hts).symm, by omega⟩
  rw [step_of_cons hcmds, hdec]
  rfl

theorem decodeTableWord_eq_some {n w : Nat} {i : Instr} :
    decodeTableWord n w = some i ↔ decode 32 (portBits w) = .ok i := by
  unfold decodeTableWord
  cases decode 32 (portBits w) <;> simp

/-- At CLK_W = 32 the port's word is the table word's 35 bits (log 10). -/
theorem relayWord_default (w : Nat) : relayWord 32 w = portBits w := by
  rw [relayWord, tsField, Nat.mod_mod]
  exact layout_fields 32 (portBits w)

/-- Settles O9: the step takes the placed word and leaves the words that waited before it. -/
theorem placedTableWordRunsNext : Obligations.PlacedTableWordRunsNext := by
  unfold Obligations.PlacedTableWordRunsNext
  intro s n w i hclk h
  have hcmds : (s.withFetchWord n w).cmds = portBits w :: s.cmds := by
    rw [State.withFetchWord_cmds, hclk, relayWord_default]
  refine step_of_decode_ok hcmds ?_
  rw [State.withFetchWord_params, hclk]
  exact decodeTableWord_eq_some.1 h

end Sys2Proof.Machine
end

section
/-! PROOFS. The output lines (spec/30_encoding.md rules R75, R76, R81), once for each kind of response. -/

namespace Sys2Proof.Machine

/-- After POLL_CODE `present` and `resp_code` carry the optional code, with 0 for none (R75). -/
theorem State.ports_of_code {s : State} {r : Option Code} (h : s.resp = .code r) :
    s.ports.respPresent = r.isSome ∧ s.ports.respCode = r.getD 0#32 := by
  simp [State.ports, h]

/-- After POLL_FIELDS `present` and the four field lines carry the optional fields, with 0 for none (R76). -/
theorem State.ports_of_fields {s : State} {r : Option Fields} (h : s.resp = .fields r) :
    s.ports.respPresent = r.isSome ∧ s.ports.respToggle = r.elim false Fields.toggle ∧
      s.ports.respMode = r.elim 0#3 Fields.mode ∧ s.ports.respGroup = r.elim 0#8 Fields.group ∧
      s.ports.respCmd = r.elim 0#8 Fields.cmd := by
  cases r <;> simp [State.ports, h]

@[simp] theorem State.ports_msgReady (s : State) : s.ports.msgReady = s.msgReady := by
  unfold State.ports
  cases s.resp <;> rfl

@[simp] theorem State.ports_captureEn (s : State) : s.ports.captureEn = s.captureEn := by
  unfold State.ports
  cases s.resp <;> rfl

/-- Settles O44. -/
theorem pollsDriveTheirLines : Obligations.PollsDriveTheirLines := by
  unfold Obligations.PollsDriveTheirLines
  intro s
  exact ⟨fun c h => s.ports_of_code h, fun h => s.ports_of_code h, fun f h => s.ports_of_fields h,
    fun h => s.ports_of_fields h⟩

/-- Settles O45. -/
theorem statusOutputsCarryFlags : Obligations.StatusOutputsCarryFlags := by
  unfold Obligations.StatusOutputsCarryFlags
  intro s
  exact ⟨s.ports_msgReady, s.ports_captureEn⟩

end Sys2Proof.Machine
end

section
/-! PROOFS. Listings (spec/30_encoding.md rules R80, R83): the commands of accepted lines are well-formed, and EDGE
+delta stands for the EDGE it expands to. -/

namespace Sys2Proof.Machine

/-! ### Accepted listings -/

theorem except_map_eq_ok {ε α β : Type} {x : Except ε α} {f : α → β} {b : β} :
    x.map f = .ok b ↔ ∃ a, x = .ok a ∧ f a = b := by
  cases x <;> simp [Except.map]

/-- The first line of an accepted listing gives one well-formed command and a t_prev for the lines after it (R80,
R83). -/
theorem expandLines_cons_of_ok {clkW : Nat} {prev : Option Nat} {l : ListingLine} {ls : List ListingLine}
    {is : List Instr} (h : expandLines clkW prev (l :: ls) = .ok is) :
    ∃ i p, WellFormed clkW i = true ∧ expandLines clkW prev (l :: ls) = (expandLines clkW p ls).map (i :: ·) := by
  cases l with
  | nop | pollCode | pollFields | reset => exact ⟨_, prev, rfl, expandLines_plain_cons rfl⟩
  | edgeAt t =>
    by_cases ht : t < 2 ^ clkW
    · exact ⟨.edge t, some t, decide_eq_true ht, expandLines_edgeAt_cons ht⟩
    · simp only [expandLines, ht, if_false] at h
      cases h
  | edgePlus d =>
    cases prev with
    | none => cases h
    | some t =>
      by_cases hd : d < 2 ^ clkW
      · have ht : (t + d) % 2 ^ clkW < 2 ^ clkW := Nat.mod_lt _ (Nat.two_pow_pos _)
        exact ⟨.edge ((t + d) % 2 ^ clkW), _, decide_eq_true ht,
          (expandLines_edgePlus_cons hd).trans (expandLines_edgeAt_cons ht)⟩
      · simp only [expandLines, hd, if_false] at h
        cases h

theorem wellFormed_of_mem_expandLines {clkW : Nat} {prev : Option Nat} {ls : List ListingLine} {is : List Instr}
    (h : expandLines clkW prev ls = .ok is) : ∀ i ∈ is, WellFormed clkW i = true := by
  induction ls generalizing prev is with
  | nil =>
    obtain rfl := Except.ok.inj h
    simp
  | cons l ls ih =>
    obtain ⟨i, p, hi, hfirst⟩ := expandLines_cons_of_ok h
    obtain ⟨js, hjs, rfl⟩ := except_map_eq_ok.1 (hfirst.symm.trans h)
    exact List.forall_mem_cons.2 ⟨hi, ih hjs⟩

theorem wellFormed_of_mem_parseListing {clkW : Nat} {text : List (List Char)} {is : List Instr}
    (h : parseListing clkW text = .ok is) : ∀ i ∈ is, WellFormed clkW i = true := by
  unfold parseListing at h
  cases hlines : text.mapM parseLine with
  | ok lines => rw [hlines] at h; exact wellFormed_of_mem_expandLines h
  | error e => rw [hlines] at h; cases h

theorem assemble_of_parseListing {clkW : Nat} {text : List (List Char)} {is : List Instr}
    (h : parseListing clkW text = .ok is) : assemble clkW text = .ok (is.map (encode clkW)) := by
  rw [assemble, h]
  rfl

/-- Settles O54. -/
theorem listingCommandsAreWellFormed : Obligations.ListingCommandsAreWellFormed := by
  unfold Obligations.ListingCommandsAreWellFormed
  intro clkW text is h
  refine ⟨assemble_of_parseListing h, fun i hi => ?_⟩
  have hwf := wellFormed_of_mem_parseListing h i hi
  exact ⟨hwf, decode_encode_of_wellFormed hwf⟩

/-! ### EDGE +delta -/

theorem expandLines_edgePlus_first (clkW d : Nat) (ls : List ListingLine) :
    expandLines clkW none (.edgePlus d :: ls) = .error .relativeFirstEdge := rfl

/-- Lines that stand for the same commands after every t_prev do so behind every start of a listing. -/
theorem expandLines_append_congr {clkW : Nat} {ls ls' : List ListingLine}
    (h : ∀ p, expandLines clkW p ls = expandLines clkW p ls') (prev : Option Nat) (lead : List ListingLine) :
    expandLines clkW prev (lead ++ ls) = expandLines clkW prev (lead ++ ls') := by
  rcases expandLines_append_cases clkW prev lead with ⟨e, he⟩ | ⟨is, last, hlead⟩
  · rw [he, he]
  · rw [hlead, hlead, h]

/-- What follows an accepted start of a listing gives its commands after those of the start, from the start's t_prev. -/
theorem expandLines_append_of_ok {clkW : Nat} {prev : Option Nat} {lead : List ListingLine} {is : List Instr}
    (h : expandLines clkW prev lead = .ok is) :
    ∃ last, ∀ ls, expandLines clkW prev (lead ++ ls) = (expandLines clkW last ls).map (is ++ ·) := by
  rcases expandLines_append_cases clkW prev lead with ⟨e, he⟩ | ⟨js, last, hlead⟩
  · have hrefused := he []
    rw [List.append_nil, h] at hrefused
    cases hrefused
  · have hends := hlead []
    rw [List.append_nil, h] at hends
    obtain rfl : is = js := by simpa [expandLines, Except.map] using hends
    exact ⟨last, hlead⟩

/-- EDGE t and the lines up to the next EDGE leave `t` as t_prev to what follows, whatever came before (R83). -/
theorem expandLines_edgeAt_plain_append {clkW t : Nat} {between : List ListingLine} (ht : t < 2 ^ clkW)
    (hplain : ∀ l ∈ between, (plainCommand l).isSome) (p : Option Nat) (ls : List ListingLine) :
    expandLines clkW p (.edgeAt t :: between ++ ls) =
      ((expandLines clkW (some t) ls).map (between.filterMap plainCommand ++ ·)).map (.edge t :: ·) := by
  rw [List.cons_append, expandLines_edgeAt_cons ht, expandLines_plain_append hplain]

/-- Settles O55. -/
theorem relativeEdgeExpands : Obligations.RelativeEdgeExpands := by
  unfold Obligations.RelativeEdgeExpands
  intro clkW t d prev lead between after ht hd hbetween
  have hplain : ∀ l ∈ between, (plainCommand l).isSome := by
    intro l hl
    obtain rfl | rfl | rfl | rfl := hbetween l hl <;> rfl
  refine ⟨?_, ?_, fun is bs his hbs => ?_⟩
  · rw [expandLines_plain_append hplain, expandLines_edgePlus_first]
    rfl
  · rw [List.append_assoc, List.append_assoc]
    refine expandLines_append_congr (fun p => ?_) prev lead
    rw [expandLines_edgeAt_plain_append ht hplain, expandLines_edgeAt_plain_append ht hplain,
      expandLines_edgePlus_cons hd]
  · obtain ⟨last, hlead⟩ := expandLines_append_of_ok his
    obtain rfl : between.filterMap plainCommand = bs := by
      have hends := expandLines_plain_append (clkW := clkW) (prev := none) (ls := []) hplain
      rw [List.append_nil, hbs] at hends
      simpa [expandLines, Except.map, eq_comm] using hends
    rw [List.append_assoc, hlead, expandLines_edgeAt_plain_append ht hplain, expandLines_edgePlus_cons hd,
      expandLines_edgeAt_cons (Nat.mod_lt _ (Nat.two_pow_pos _))]
    simp [expandLines, Except.map]

end Sys2Proof.Machine
end

section
/-! PROOFS. The elapsed time and the quantizer (spec/40_edge_capture.md rules R100 to R102, R111). -/

namespace Sys2Proof.Machine

/-- Settles O24: the remainder is the difference itself, or the difference and one turn of the clock. -/
theorem elapsedToleratesWraparound : Obligations.ElapsedToleratesWraparound := by
  unfold Obligations.ElapsedToleratesWraparound
  intro clkW ts last hts hlast
  have hmod := elapsed_eq_emod clkW ts last
  refine ⟨hmod, fun hle => ?_, fun hlt => ?_⟩
  · rw [Int.emod_eq_of_lt (by omega) (by omega)] at hmod
    omega
  · rw [← Int.add_emod_right, Int.emod_eq_of_lt (by omega) (by omega)] at hmod
    omega

/-- The branches of CLASSIFY: the class and the interval of each (R100). -/
theorem classify_cases (p : Params) (e : Nat) :
    (classify p e = some .u1 ∧ e < p.th1) ∨ (classify p e = some .u2 ∧ p.th1 ≤ e ∧ e < p.th2) ∨
      (classify p e = some .u3 ∧ p.th2 ≤ e ∧ e < p.th3) ∨ (classify p e = some .u6 ∧ p.th3 ≤ e ∧ e < p.th4) ∨
      (classify p e = none ∧ p.th4 ≤ e) := by
  unfold classify
  split_ifs with h1 h2 h3 h4
  · exact .inl ⟨rfl, h1⟩
  · exact .inr (.inl ⟨rfl, Nat.le_of_not_lt h1, h2⟩)
  · exact .inr (.inr (.inl ⟨rfl, Nat.le_of_not_lt h2, h3⟩))
  · exact .inr (.inr (.inr (.inl ⟨rfl, Nat.le_of_not_lt h3, h4⟩)))
  · exact .inr (.inr (.inr (.inr ⟨rfl, Nat.le_of_not_lt h4⟩)))

/-- Settles O22: the thresholds rise, so the interval of one branch excludes those of the others. -/
theorem classifyFollowsThresholds : Obligations.ClassifyFollowsThresholds := by
  unfold Obligations.ClassifyFollowsThresholds
  refine ⟨fun p e hp => ?_, rfl, rfl, rfl, rfl⟩
  obtain ⟨hpos, h12, h23, h34, -⟩ := Params.rising_of_wf hp
  have hzero : classify p 0 = some .u1 := if_pos hpos
  rcases classify_cases p e with ⟨hc, h⟩ | ⟨hc, h⟩ | ⟨hc, h⟩ | ⟨hc, h⟩ | ⟨hc, h⟩ <;> simp [hc, hzero] <;> omega

/-- Settles O23: the classes between the default thresholds. -/
theorem defaultClassTable : Obligations.DefaultClassTable := by
  unfold Obligations.DefaultClassTable
  intro e
  obtain ⟨hclasses, hth1, hth2, hth3, hth4⟩ := classifyFollowsThresholds
  obtain ⟨hu1, hu2, hu3, hu6, hinvalid, -⟩ := hclasses Params.default e (by decide)
  rw [hth1] at hu1
  rw [hth1, hth2] at hu2
  rw [hth2, hth3] at hu3
  rw [hth3, hth4] at hu6
  rw [hth4] at hinvalid
  exact ⟨fun h => hu1.2 (by omega), fun h h' => hu2.2 ⟨h, by omega⟩, fun h h' => hu3.2 ⟨h, by omega⟩,
    fun h h' => hu6.2 ⟨h, by omega⟩, hinvalid.2⟩

end Sys2Proof.Machine
end

section
/-! PROOFS. What one EDGE does (spec/40_edge_capture.md rules R103 to R109): ignored, an INVALID interval or a full
sequence, or the append of a unit. -/

namespace Sys2Proof.Machine

/-! ### The gate -/

/-- Settles O26. -/
theorem disabledEdgeChangesNothing : Obligations.DisabledEdgeChangesNothing := by
  unfold Obligations.DisabledEdgeChangesNothing
  intro s ts hts hen
  refine ⟨_, execEdge_of_disabled hen, SameItems.refl s, SameOutside.refl s, rfl, ?_⟩
  rw [State.record_outcome, operandTs_of_lt hts]

/-- Behind the open gate an EDGE does what its admission answers (R103). -/
theorem exec_edge_of_admitEdge {s t : State} {ts : Nat} (hts : ts < 2 ^ s.params.clkW) (hen : s.captureEn = true)
    (h : admitEdge s.accept ts = .ok t) : exec (.edge ts) s = .next t :=
  execEdge_eq_next.2 (.inr ⟨hen, by rwa [operandTs_of_lt hts]⟩)

/-! ### CURSOR and SUM emptied -/

/-- Settles O27. -/
theorem invalidIntervalEmptiesSequence : Obligations.InvalidIntervalEmptiesSequence := by
  unfold Obligations.InvalidIntervalEmptiesSequence
  intro s ts hts hen hclass
  exact ⟨_, exec_edge_of_admitEdge hts hen (admitEdge_of_invalid hclass), rfl, rfl, rfl, Nat.mod_eq_of_lt hts, rfl, rfl,
    ⟨rfl, rfl⟩, rfl, rfl⟩

theorem State.leaderReset_of_ne (s : State) {u : Quantum} (h : u ≠ .u6) : s.leaderReset u = s := if_neg h

/-- Settles O29. -/
theorem fullSequenceOverflows : Obligations.FullSequenceOverflows := by
  unfold Obligations.FullSequenceOverflows
  intro s ts u hts hen hu hclass hfull
  have hcap : ((s.accept.setLastTs ts).leaderReset u).cursor.toNat = Config.cap := by simp [hu, hfull]
  have hexec := exec_edge_of_admitEdge hts hen (admitEdge_of_full hclass hcap)
  rw [State.leaderReset_of_ne _ hu] at hexec
  exact ⟨_, hexec, rfl, rfl, rfl, Nat.mod_eq_of_lt hts, rfl, rfl, ⟨rfl, rfl⟩, rfl, rfl⟩

/-! ### The append -/

theorem storeIndex_u6 (s : State) : storeIndex s .u6 = 0 := rfl

theorem storeIndex_of_ne (s : State) {u : Quantum} (h : u ≠ .u6) : storeIndex s u = s.cursor.toNat := by
  rw [storeIndex, State.leaderReset_of_ne s h]

theorem State.settleAppend_of_lt {s : State} (h : 50 < s.sum.toNat) (u : Quantum) (e : Nat) :
    s.settleAppend u e = s.completeMsg.record (.complete s.cursor) := by
  simp [State.settleAppend, State.overFrame, h]

theorem State.settleAppend_of_le {s : State} (h : s.sum.toNat ≤ 50) (u : Quantum) (e : Nat) :
    s.settleAppend u e = s.record (if u = .u6 then .leaderRestart e else .append u) := by
  by_cases hu : u = .u6 <;> simp [State.settleAppend, State.overFrame, Nat.not_lt.2 h, hu]

@[simp] theorem State.settleAppend_sum (s : State) (u : Quantum) (e : Nat) : (s.settleAppend u e).sum = s.sum := by
  unfold State.settleAppend
  split
  · rfl
  · split <;> rfl

@[simp] theorem State.settleAppend_lastTs (s : State) (u : Quantum) (e : Nat) :
    (s.settleAppend u e).lastTs = s.lastTs := by
  unfold State.settleAppend
  split
  · rfl
  · split <;> rfl

/-- What an EDGE at `ts` that appends the unit `u` makes of `s` (R106, R108, R109). -/
structure EdgeAppends (s t : State) (ts : Nat) (u : Quantum) : Prop where
  cursor : t.cursor.toNat = storeIndex s u + 1
  sum : t.sum.toNat = (s.leaderReset u).sum.toNat + u.bits.toNat
  entry : ∀ a, t.seq.entry a = if a = storeIndex s u then some u.bits else s.seq.entry a
  lastTs : t.lastTs = ts
  outside : SameOutside s t
  resp : t.resp = .undriven
  completes : 50 < t.sum.toNat → t.msgReady = true ∧ t.captureEn = false ∧ t.outcome = some (.complete t.cursor)
  continues : t.sum.toNat ≤ 50 → t.msgReady = s.msgReady ∧ t.captureEn = s.captureEn ∧
    t.outcome = some (if u = .u6 then .leaderRestart (elapsed s.params.clkW ts s.lastTs) else .append u)

/-- A unit that meets a free entry is admitted as an append, after the leader's reset where it is a 6 (R106, R108). -/
theorem admitEdge_of_room {s : State} {ts : Nat} {u : Quantum}
    (hclass : classify s.params (elapsed s.params.clkW ts s.lastTs) = some u) (hroom : storeIndex s u < 44) :
    ∃ a, ((s.setLastTs ts).leaderReset u).appendEntry u.bits = .ok a ∧
      admitEdge s ts = .ok (a.settleAppend u (elapsed s.params.clkW ts s.lastTs)) := by
  have hlt : ((s.setLastTs ts).leaderReset u).cursor.toNat < 44 := by simpa [storeIndex] using hroom
  have happ := (State.appendEntry_eq_ok (v := u.bits)).2 ⟨hlt, rfl⟩
  exact ⟨_, happ, (admitEdge_of_unit hclass (Nat.ne_of_lt hlt)).trans (appendUnit_eq_ok.2 ⟨_, happ, rfl⟩)⟩

/-- EDGE with a unit that meets a free entry appends it (R103, R108, R109). -/
theorem exec_edge_appends {s : State} {ts : Nat} {u : Quantum} (hts : ts < 2 ^ s.params.clkW) (hen : s.captureEn = true)
    (hclass : classify s.params (elapsed s.params.clkW ts s.lastTs) = some u) (hroom : storeIndex s u < 44)
    (hsum : (s.leaderReset u).sum.toNat ≤ 50) : ∃ t, exec (.edge ts) s = .next t ∧ EdgeAppends s t ts u := by
  obtain ⟨a, happ, hadmit⟩ := admitEdge_of_room (s := s.accept) hclass (by rwa [storeIndex_accept])
  have hexec := exec_edge_of_admitEdge hts hen hadmit
  have hindex : ((s.accept.setLastTs ts).leaderReset u).cursor.toNat = storeIndex s u := by simp [storeIndex]
  have hbefore : ((s.accept.setLastTs ts).leaderReset u).sum = (s.leaderReset u).sum := by simp
  have hunit : u.bits.toNat < 8 := u.bits.isLt
  have hsum' := State.appendEntry_sum happ (by rw [hbefore]; omega)
  obtain ⟨hen', hready', hts', -⟩ := State.appendEntry_frame happ
  rw [State.leaderReset_captureEn] at hen'
  rw [State.leaderReset_msgReady] at hready'
  rw [State.leaderReset_lastTs] at hts'
  refine ⟨_, hexec, ?_⟩
  exact {
    cursor := by rw [State.settleAppend_cursor, State.appendEntry_cursor happ, hindex]
    sum := by rw [State.settleAppend_sum, hsum', hbefore]
    entry := fun k => by
      rw [State.settleAppend_seq, State.appendEntry_entry happ, hindex, State.leaderReset_seq]
      rfl
    lastTs := by rw [State.settleAppend_lastTs, hts']; exact Nat.mod_eq_of_lt hts
    outside := (exec_outside hexec).1
    resp := execEdge_resp hexec
    completes := fun h => by
      rw [State.settleAppend_sum] at h
      rw [State.settleAppend_of_lt h]
      exact ⟨rfl, rfl, rfl⟩
    continues := fun h => by
      rw [State.settleAppend_sum] at h
      rw [State.settleAppend_of_le h]
      exact ⟨hready', hen', rfl⟩ }

/-- Settles O28. -/
theorem leaderRestartsSequence : Obligations.LeaderRestartsSequence := by
  unfold Obligations.LeaderRestartsSequence
  intro s ts hts hen hclass
  obtain ⟨t, hexec, h⟩ := exec_edge_appends hts hen hclass (by simp [storeIndex_u6]) (by simp)
  have hsum : t.sum = 6#6 := BitVec.eq_of_toNat_eq (by simpa [Quantum.bits] using h.sum)
  obtain ⟨hready, htEn, hout⟩ := h.continues (by simp [hsum])
  exact ⟨t, hexec, BitVec.eq_of_toNat_eq h.cursor, hsum, h.entry 0, storeIndex_u6 s,
    fun a ha => (h.entry a).trans (if_neg ha), h.lastTs, hready, htEn, h.outside, h.resp, hout⟩

/-- Settles O30. -/
theorem unitIsAppendedAndCompletes : Obligations.UnitIsAppendedAndCompletes := by
  unfold Obligations.UnitIsAppendedAndCompletes
  intro s ts u hts hen hu hclass hroom hsum
  have hindex := storeIndex_of_ne s hu
  have hkept := State.leaderReset_of_ne s hu
  obtain ⟨t, hexec, h⟩ := exec_edge_appends hts hen hclass (by rwa [hindex]) (by rwa [hkept])
  have htSum := h.sum
  rw [hkept] at htSum
  refine ⟨t, hexec, by rw [h.cursor, hindex], htSum, (h.entry _).trans (if_pos rfl), hindex,
    fun a ha => (h.entry a).trans (if_neg ha), h.lastTs, h.outside, h.resp, ?_, ?_⟩
  · rw [← htSum]
    exact h.completes
  · rw [← htSum]
    simpa [hu] using h.continues

end Sys2Proof.Machine
end

section
/-! PROOFS. The well-formed frame of spec/41_decoder.md rule R139: its runs, and what capture keeps of them. -/

namespace Sys2Proof.Machine

/-! ### The runs of a level sequence -/

/-- The first stretch starts a run of its own, or lengthens the run behind it. -/
theorem mergeLevels_cons_cases (l : Bool) (n : Nat) (ls : List Level) :
    mergeLevels ((l, n) :: ls) = (l, n) :: mergeLevels ls ∨
      ∃ k rs, mergeLevels ls = (l, k) :: rs ∧ mergeLevels ((l, n) :: ls) = (l, n + k) :: rs := by
  rw [mergeLevels]
  split
  · next h => exact .inl (by rw [h])
  · next l' k rs h =>
    by_cases hl : l = l'
    · subst hl
      exact .inr ⟨k, rs, h, if_pos rfl⟩
    · exact .inl (by rw [if_neg hl, h])

theorem mergeLevels_cons_level (l : Bool) (n : Nat) (ls : List Level) :
    ∃ k rs, mergeLevels ((l, n) :: ls) = (l, k) :: rs := by
  rcases mergeLevels_cons_cases l n ls with h | ⟨k, rs, -, h⟩
  · exact ⟨n, _, h⟩
  · exact ⟨n + k, rs, h⟩

/-- A stretch before one of the other level is a run of its own. -/
theorem mergeLevels_cons_cons_not (l : Bool) (n k : Nat) (ls : List Level) :
    mergeLevels ((l, n) :: (!l, k) :: ls) = (l, n) :: mergeLevels ((!l, k) :: ls) := by
  rcases mergeLevels_cons_cases l n ((!l, k) :: ls) with h | ⟨_, _, hsame, -⟩
  · exact h
  · obtain ⟨_, _, hnot⟩ := mergeLevels_cons_level (!l) k ls
    simp [hnot] at hsame

/-- Merging keeps the total length. -/
theorem mergeLevels_sum (ls : List Level) : ((mergeLevels ls).map Prod.snd).sum = (ls.map Prod.snd).sum := by
  induction ls with
  | nil => rfl
  | cons c ls ih =>
    rcases mergeLevels_cons_cases c.1 c.2 ls with h | ⟨k, rs, hk, h⟩
    · rw [h, List.map_cons, List.sum_cons, ih]
      rfl
    · rw [hk] at ih
      rw [h]
      simp only [List.map_cons, List.sum_cons] at ih ⊢
      omega

theorem mergeLevels_length_le (ls : List Level) : (mergeLevels ls).length ≤ ls.length := by
  induction ls with
  | nil => exact Nat.le_refl _
  | cons c ls ih =>
    rcases mergeLevels_cons_cases c.1 c.2 ls with h | ⟨k, rs, hk, h⟩
    · rw [h]
      exact Nat.succ_le_succ ih
    · rw [hk] at ih
      rw [h]
      exact Nat.le_succ_of_le ih

/-- A last stretch of the other level is a run of its own. -/
theorem mergeLevels_append_not (ls : List Level) (l : Bool) (n k : Nat) :
    mergeLevels (ls ++ [(l, n), (!l, k)]) = mergeLevels (ls ++ [(l, n)]) ++ [(!l, k)] := by
  induction ls with
  | nil => exact mergeLevels_cons_cons_not l n k []
  | cons c ls ih =>
    rw [List.cons_append, List.cons_append, mergeLevels, mergeLevels, ih]
    cases h : mergeLevels (ls ++ [(l, n)]) with
    | nil =>
      cases ls with
      | nil => cases h
      | cons d ls =>
        obtain ⟨_, _, hne⟩ := mergeLevels_cons_level d.1 d.2 (ls ++ [(l, n)])
        exact absurd (hne.symm.trans h) (List.cons_ne_nil _ _)
    | cons r rs =>
      simp only [List.cons_append]
      split <;> rfl

/-- Of the last run only a mark is kept: a space merges with idle (R139, G3). -/
theorem runLengths_append_singleton (rs : List Level) (l : Bool) (n : Nat) :
    runLengths (rs ++ [(l, n)]) = rs.map Prod.snd ++ if l then [n] else [] := by
  induction rs with
  | nil => rfl
  | cons r rs ih =>
    cases rs with
    | nil => cases l <;> rfl
    | cons r' rs => exact congrArg (r.2 :: ·) ih

/-! ### The runs of Manchester bits -/

/-- The levels of bits, each with the length of its halves (R139). -/
def bitLevels (bits : List (Nat × Bool)) : List Level := bits.flatMap fun c => manchester c.1 c.2

theorem bitLevels_cons (c : Nat × Bool) (bits : List (Nat × Bool)) :
    bitLevels (c :: bits) = (c.2, c.1) :: (!c.2, c.1) :: bitLevels bits := rfl

theorem bitLevels_length (bits : List (Nat × Bool)) : (bitLevels bits).length = 2 * bits.length := by
  induction bits with
  | nil => rfl
  | cons c bits ih => simp only [bitLevels_cons, List.length_cons, ih]; omega

theorem bitLevels_sum (bits : List (Nat × Bool)) :
    ((bitLevels bits).map Prod.snd).sum = 2 * (bits.map Prod.fst).sum := by
  induction bits with
  | nil => rfl
  | cons c bits ih => simp only [bitLevels_cons, List.map_cons, List.sum_cons, ih]; omega

/-- Bits of half-lengths 1 and 2, and half a bit of length 1 behind them: every bit has a level change in its middle, and
a run is at most two halves long. -/
theorem mergeLevels_bitLevels {bits : List (Nat × Bool)} (hw : ∀ c ∈ bits, 1 ≤ c.1 ∧ c.1 ≤ 2) (b : Bool) :
    ∃ l n rs, mergeLevels (bitLevels bits ++ [(b, 1)]) = (l, n) :: rs ∧ 1 ≤ n ∧ n ≤ 2 ∧ bits.length ≤ rs.length ∧
      ∀ r ∈ rs, 1 ≤ r.2 ∧ r.2 ≤ 4 := by
  induction bits with
  | nil => exact ⟨b, 1, [], rfl, by simp⟩
  | cons c bits ih =>
    obtain ⟨w, a⟩ := c
    obtain ⟨⟨hpos, hle⟩, hbits⟩ := List.forall_mem_cons.1 hw
    obtain ⟨l, n, rs, hmerge, hn, hn', hlen, hrs⟩ := ih hbits
    have hbit : mergeLevels (bitLevels ((w, a) :: bits) ++ [(b, 1)]) =
        (a, w) :: mergeLevels ((!a, w) :: (bitLevels bits ++ [(b, 1)])) :=
      mergeLevels_cons_cons_not a w w _
    refine ⟨a, w, _, hbit, hpos, hle, ?_⟩
    rcases mergeLevels_cons_cases (!a) w (bitLevels bits ++ [(b, 1)]) with h | ⟨k, rs', hk, h⟩
    · rw [h, hmerge]
      simp only [List.length_cons, List.forall_mem_cons]
      exact ⟨by omega, by omega, by omega, hrs⟩
    · rw [hk] at hmerge
      obtain ⟨⟨-, rfl⟩, rfl⟩ : (_ ∧ k = n) ∧ rs' = rs := by simpa using hmerge
      rw [h]
      simp only [List.length_cons, List.forall_mem_cons]
      exact ⟨by omega, by omega, hrs⟩

/-! ### The frame -/

/-- The bits of the frame but the last, from the start bit on (R139). -/
def frameBits (f : Fields) : List (Nat × Bool) :=
  (1, true) :: (msbFirst f.mode).map (Prod.mk 1) ++ (2, f.toggle) :: (msbFirst f.group).map (Prod.mk 1) ++
    (List.range' 1 7).reverse.map fun i => (1, f.cmd.getLsbD i)

/-- The frame from behind the leader's space up to the middle of its last bit, where SUM reaches 51. -/
def frameCore (f : Fields) : List Level := bitLevels (frameBits f) ++ [(f.cmd.getLsbD 0, 1)]

theorem frameLevels_eq (f : Fields) :
    frameLevels f = [(true, 6), (false, 2)] ++ bitLevels (frameBits f) ++
      [(f.cmd.getLsbD 0, 1), (!f.cmd.getLsbD 0, 1)] := rfl

/-- The lengths of the core's runs: the units captured behind the leader. -/
def coreUnits (f : Fields) : List Nat := (mergeLevels (frameCore f)).map Prod.snd

/-- The frame's intervals: the leader, the runs up to the middle of the last bit, and a last mark where that bit is 0. -/
theorem frameUnits_eq (f : Fields) :
    frameUnits f = 6 :: 2 :: coreUnits f ++ if !f.cmd.getLsbD 0 then [1] else [] := by
  have hhead : mergeLevels ([(true, 6), (false, 2)] ++ bitLevels (frameBits f) ++ [(f.cmd.getLsbD 0, 1)]) =
      (true, 6) :: (false, 2) :: mergeLevels (frameCore f) :=
    (mergeLevels_cons_cons_not true 6 2 _).trans
      (congrArg ((true, 6) :: ·) (mergeLevels_cons_cons_not false 2 1 _))
  rw [frameUnits, frameLevels_eq, mergeLevels_append_not, runLengths_append_singleton, hhead]
  rfl

theorem frameBits_length (f : Fields) : (frameBits f).length = 20 := by simp [frameBits, msbFirst]

theorem frameBits_sum (f : Fields) : ((frameBits f).map Prod.fst).sum = 21 := by
  simp [frameBits, msbFirst, Function.comp_def]

theorem frameBits_halves (f : Fields) : ∀ c ∈ frameBits f, 1 ≤ c.1 ∧ c.1 ≤ 2 := by
  intro c hc
  simp only [frameBits, List.cons_append, List.append_assoc, List.mem_cons, List.mem_append, List.mem_map] at hc
  obtain rfl | ⟨_, -, rfl⟩ | rfl | ⟨_, -, rfl⟩ | ⟨_, -, rfl⟩ := hc <;> simp

theorem coreUnits_sum (f : Fields) : (coreUnits f).sum = 43 := by
  simp [coreUnits, mergeLevels_sum, frameCore, bitLevels_sum, frameBits_sum]

/-- There are 41 halves, and every bit's middle begins a run (R139). -/
theorem coreUnits_length (f : Fields) : 21 ≤ (coreUnits f).length ∧ (coreUnits f).length ≤ 41 := by
  have hupper := mergeLevels_length_le (frameCore f)
  obtain ⟨l, n, rs, hmerge, -, -, hlower, -⟩ := mergeLevels_bitLevels (frameBits_halves f) (f.cmd.getLsbD 0)
  rw [frameBits_length] at hlower
  simp only [frameCore, List.length_append, bitLevels_length, frameBits_length, List.length_singleton] at hupper
  rw [coreUnits, List.length_map]
  refine ⟨?_, hupper⟩
  rw [frameCore, hmerge, List.length_cons]
  omega

theorem coreUnits_bounds (f : Fields) : ∀ u ∈ coreUnits f, 1 ≤ u ∧ u ≤ 4 := by
  obtain ⟨l, n, rs, hmerge, hpos, hle, -, hrs⟩ := mergeLevels_bitLevels (frameBits_halves f) (f.cmd.getLsbD 0)
  rw [coreUnits, frameCore, hmerge, List.forall_mem_map, List.forall_mem_cons]
  exact ⟨⟨hpos, by omega⟩, hrs⟩

/-! ### What capture keeps of it -/

/-- Capture keeps units that take the sum to exactly 51, and none behind them (R109). -/
theorem captured_append {us : List Nat} {sum : Nat} (rest : List Nat) (hle : sum ≤ 50) (hsum : sum + us.sum = 51)
    (hpos : ∀ u ∈ us, 1 ≤ u) : captured sum (us ++ rest) = us := by
  induction us generalizing sum with
  | nil => simp at hsum; omega
  | cons u us ih =>
    obtain ⟨-, hus⟩ := List.forall_mem_cons.1 hpos
    rw [List.sum_cons] at hsum
    rw [List.cons_append, captured]
    split
    · next hover =>
      have hzero : us.sum = 0 := by simp only [Config.frameUnits] at hover; omega
      cases us with
      | nil => rfl
      | cons v us =>
        have := hus v (by simp)
        rw [List.sum_cons] at hzero
        omega
    · next hunder => rw [ih (Nat.le_of_not_lt hunder) (by omega) hus]

theorem captured_frameUnits (f : Fields) : captured 0 (frameUnits f) = 6 :: 2 :: coreUnits f := by
  rw [frameUnits_eq]
  refine captured_append _ (Nat.zero_le _) ?_ ?_
  · simp [coreUnits_sum]
  · simpa using fun u hu => (coreUnits_bounds f u hu).1

/-- Only the leader is a 6. -/
theorem six_not_mem_tail_frameUnits (f : Fields) : 6 ∉ (frameUnits f).tail := by
  have hcore : 6 ∉ coreUnits f := fun h => absurd (coreUnits_bounds f 6 h).2 (by decide)
  rw [frameUnits_eq]
  simpa using hcore

theorem frameUnits_sum (f : Fields) : 50 < (frameUnits f).sum := by
  rw [frameUnits_eq, List.sum_append, List.sum_cons, List.sum_cons, coreUnits_sum]
  omega

end Sys2Proof.Machine
end

section
/-! PROOFS. The capture of a unit sequence, EDGE by EDGE, and with it R112 of spec/40_edge_capture.md. -/

namespace Sys2Proof.Machine

/-- The sequence holds exactly the units `us`: in its entries below CURSOR, and summed in SUM. -/
structure State.Holds (s : State) (us : List Nat) : Prop where
  cursor : s.cursor.toNat = us.length
  sum : s.sum.toNat = us.sum
  seq : HoldsUnits s.seq us

theorem State.Holds.of_sameItems {s t : State} {us : List Nat} (h : s.Holds us) (hsame : SameItems s t) :
    t.Holds us := by
  obtain ⟨hseq, hcursor, hsum, -⟩ := hsame
  exact ⟨by rw [hcursor, h.cursor], by rw [hsum, h.sum], by rw [hseq]; exact h.seq⟩

theorem SameItems.msgReady {s t : State} (h : SameItems s t) : t.msgReady = s.msgReady := by
  obtain ⟨-, -, -, -, hready, -⟩ := h
  exact hready

theorem State.holds_nil {s : State} (hcursor : s.cursor = 0#6) (hsum : s.sum = 0#6) : s.Holds [] :=
  ⟨by rw [hcursor]; rfl, by rw [hsum]; rfl, fun _ hk => absurd hk (Nat.not_lt_zero _)⟩

theorem holdsUnits_append {m m' : Memory} {us : List Nat} {v : Entry} (h : HoldsUnits m us)
    (hentry : ∀ k, m'.entry k = if k = us.length then some v else m.entry k) : HoldsUnits m' (us ++ [v.toNat]) := by
  intro k hk
  rw [List.length_append, List.length_singleton] at hk
  rw [hentry]
  split
  · next hlast => simp [hlast]
  · next hne => rw [h k (by omega), List.getElem?_append_left (by omega)]

/-- An EDGE of the unit `q` goes on with the units captured so far, where a 6 comes first only (R106, R108, R109). -/
theorem exec_edge_holds {s : State} {us : List Nat} {ts : Nat} {q : Quantum} (h : s.Holds us)
    (hen : s.captureEn = true) (hts : ts < 2 ^ s.params.clkW)
    (hclass : classify s.params (elapsed s.params.clkW ts s.lastTs) = some q) (hroom : us.length < 44)
    (hsum : us.sum ≤ 50) (hsix : q = .u6 → us = []) :
    ∃ t, exec (.edge ts) s = .next t ∧ EdgeAppends s t ts q ∧ t.Holds (us ++ [q.bits.toNat]) := by
  obtain ⟨hindex, hbefore⟩ : storeIndex s q = us.length ∧ (s.leaderReset q).sum.toNat = us.sum := by
    by_cases hq : q = .u6
    · rw [hq, hsix hq]
      exact ⟨rfl, rfl⟩
    · rw [storeIndex_of_ne s hq, State.leaderReset_of_ne s hq]
      exact ⟨h.cursor, h.sum⟩
  obtain ⟨t, hexec, happ⟩ := exec_edge_appends hts hen hclass (by rwa [hindex]) (by rwa [hbefore])
  refine ⟨t, hexec, happ, ?_, ?_, ?_⟩
  · rw [happ.cursor, hindex, List.length_append, List.length_singleton]
  · rw [happ.sum, hbefore, List.sum_append, List.sum_singleton]
  · exact holdsUnits_append h.seq fun k => by rw [happ.entry, hindex]

theorem fitsUnits_cons {p : Params} {last u : Nat} {ts us : List Nat} (h : fitsUnits p last ts (u :: us) = true) :
    ∃ t rest q, ts = t :: rest ∧ t < 2 ^ p.clkW ∧ classify p (elapsed p.clkW t last) = some q ∧ q.bits.toNat = u ∧
      fitsUnits p t rest us = true := by
  cases ts with
  | nil => cases h
  | cons t rest =>
    simp only [fitsUnits, Bool.and_eq_true, decide_eq_true_eq, beq_iff_eq, Option.map_eq_some_iff] at h
    obtain ⟨⟨ht, q, hq, hu⟩, hrest⟩ := h
    exact ⟨t, rest, q, rfl, ht, hq, hu, hrest⟩

/-- Units that pass 50, a 6 nowhere but first, complete a message of the ones up to the one that passes it; the EDGEs
behind it are ignored (R104, R109). By induction on the units to come, `done` those captured already. -/
theorem execAll_edges_capture {us : List Nat} {done ts : List Nat} {s : State} (h : s.Holds done)
    (hen : s.captureEn = true) (hle : done.sum ≤ 50) (hfits : fitsUnits s.params s.lastTs ts us = true)
    (hsix : 6 ∉ (done ++ us).tail) (hsum : 50 < (done ++ us).sum)
    (hlen : (done ++ captured done.sum us).length ≤ 44) :
    ∃ t, execAll (ts.map Instr.edge) s = .next t ∧ t.msgReady = true ∧ t.captureEn = false ∧
      t.Holds (done ++ captured done.sum us) := by
  induction us generalizing done ts s with
  | nil =>
    rw [List.append_nil] at hsum
    omega
  | cons u us ih =>
    obtain ⟨ts₁, rest, q, rfl, hts, hclass, rfl, hrest⟩ := fitsUnits_cons hfits
    have hfirst : q = .u6 → done = [] := by
      rintro rfl
      cases done with
      | nil => rfl
      | cons d done => exact absurd (by simp [Quantum.bits]) hsix
    have hroom : done.length < 44 := by
      rw [captured, List.length_append] at hlen
      split at hlen <;> rw [List.length_cons] at hlen <;> omega
    obtain ⟨t, hexec, happ, ht⟩ := exec_edge_holds h hen hts hclass hroom hle hfirst
    obtain ⟨hparams, -⟩ := happ.outside
    have htSum : t.sum.toNat = done.sum + q.bits.toNat := by
      rw [ht.sum, List.sum_append, List.sum_singleton]
    rw [List.map_cons, execAll_cons_of_next _ hexec]
    by_cases hover : 50 < done.sum + q.bits.toNat
    · rw [captured, if_pos hover]
      obtain ⟨hready, htEn, -⟩ := happ.completes (by rwa [htSum])
      obtain ⟨t', hignored, hsame⟩ := execAll_of_disabled (is := rest.map Instr.edge) htEn (by simp)
      exact ⟨t', hignored, hsame.msgReady.trans hready, hsame.captureEn.trans htEn, ht.of_sameItems hsame⟩
    · rw [captured, if_neg hover] at hlen ⊢
      obtain ⟨-, htEn, -⟩ := happ.continues (by omega)
      have hdone : (done ++ [q.bits.toNat]).sum = done.sum + q.bits.toNat := by simp
      have hlater := ih ht (htEn.trans hen) (by omega) (by rwa [hparams, happ.lastTs]) (by simpa using hsix)
        (by simpa using hsum) (by rw [hdone]; simpa using hlen)
      rw [hdone] at hlater
      simpa using hlater

/-- Settles O52. -/
theorem frameCaptureCompletesAtFiftyOne : Obligations.FrameCaptureCompletesAtFiftyOne := by
  unfold Obligations.FrameCaptureCompletesAtFiftyOne
  intro s f t0 ts _ hen ht0 hclass hfits
  obtain ⟨s₀, hexec, hcursor, hsum, -, hlast, -, hen₀, ⟨hparams, -⟩, -⟩ :=
    invalidIntervalEmptiesSequence s t0 ht0 hen hclass
  obtain ⟨hlower, hupper⟩ := coreUnits_length f
  have hkept := captured_frameUnits f
  obtain ⟨t, hcapture, hready, htEn, ht⟩ := execAll_edges_capture (us := frameUnits f) (done := [])
    (State.holds_nil hcursor hsum) (hen₀.trans hen) (Nat.zero_le _) (by rwa [hparams, hlast])
    (six_not_mem_tail_frameUnits f) (frameUnits_sum f) (by simp [hkept]; omega)
  rw [List.nil_append, List.sum_nil] at ht
  have hcursor' := ht.cursor
  have hsum' := ht.sum
  rw [hkept] at hcursor' hsum'
  simp only [List.length_cons, List.sum_cons, coreUnits_sum] at hcursor' hsum'
  exact ⟨t, by rw [List.map_cons, execAll_cons_of_next _ hexec, hcapture], hready, htEn, BitVec.eq_of_toNat_eq hsum',
    by omega, by omega, ht.cursor, ht.seq⟩

end Sys2Proof.Machine
end

section
/-! PROOFS. The polls' answers: without a message (spec/41_decoder.md rule R130), POLL_FIELDS against POLL_CODE (R131), and
the fields of a code (R137). -/

namespace Sys2Proof.Machine

/-- Settles O35. -/
theorem pollWithoutMessageIsNone : Obligations.PollWithoutMessageIsNone := by
  unfold Obligations.PollWithoutMessageIsNone
  intro s hready
  exact ⟨⟨_, exec_pollCode_of_not_ready hready, SameItems.refl s, SameOutside.refl s, rfl, rfl⟩,
    ⟨_, exec_pollFields_of_not_ready hready, SameItems.refl s, SameOutside.refl s, rfl, rfl⟩⟩

/-- POLL_CODE faults exactly where the shared part does. -/
theorem execPollCode_eq_fault {s : State} {f : Fault} :
    execPollCode s = .fault f ↔ pollMsg s.accept = .error f := by
  unfold execPollCode
  cases pollMsg s.accept <;> simp

/-- POLL_FIELDS faults exactly where the shared part does. -/
theorem execPollFields_eq_fault {s : State} {f : Fault} :
    execPollFields s = .fault f ↔ pollMsg s.accept = .error f := by
  unfold execPollFields
  cases pollMsg s.accept <;> simp

/-- Settles O40: both polls answer from the one shared part. -/
theorem pollFieldsIsPollCodeDecomposed : Obligations.PollFieldsIsPollCodeDecomposed := by
  unfold Obligations.PollFieldsIsPollCodeDecomposed
  intro s
  refine ⟨fun t h => ?_, fun f => execPollCode_eq_fault.trans execPollFields_eq_fault.symm⟩
  obtain ⟨d, r, hp, rfl⟩ := execPollCode_eq_next.1 h
  exact ⟨r, rfl, execPollFields_eq_next.2 ⟨d, r, hp, rfl⟩⟩

/-- Settles O42. -/
theorem fieldsFollowPackedLayout : Obligations.FieldsFollowPackedLayout := by
  unfold Obligations.FieldsFollowPackedLayout
  intro c
  have hslice (start len : Nat) : (c.extractLsb' start len).toNat = c.toNat / 2 ^ start % 2 ^ len := by
    rw [BitVec.extractLsb'_toNat, Nat.shiftRight_eq_div_pow]
  refine ⟨rfl, hslice 17 3, hslice 8 8, (hslice 0 8).trans ?_⟩
  rw [Nat.pow_zero, Nat.div_one]

end Sys2Proof.Machine
end

section
/-! PROOFS. The skew compensation (spec/41_decoder.md rule R134): where the toggle entry stands, and what the two decrements
leave. -/

namespace Sys2Proof.Machine

/-! ### Entries that hold units, and pass offset 18 -/

section
variable {m : Memory} {n : Nat}

/-- Entries that hold units move the offset on by at least one each. -/
theorem add_le_prefixSum_of_units (hu : ∀ k < n, ∃ v, m.entry k = some v ∧ 1 ≤ v.toNat) (a : Nat) {d : Nat}
    (hd : a + d ≤ n) : prefixSum m a + d ≤ prefixSum m (a + d) := by
  induction d with
  | zero => exact Nat.le_refl _
  | succ d ih =>
    obtain ⟨v, hv, hpos⟩ := hu (a + d) (by omega)
    have hle := ih (by omega)
    rw [← Nat.add_assoc a, prefixSum_succ, entryUnits_of_entry hv]
    omega

variable (hlong : Config.toggleOff < prefixSum m n)
include hlong

/-- The entry that ends at offset 18 has a successor among the first `n`. -/
theorem succ_lt_of_prefixSum_eq {j : Nat} (hj : prefixSum m (j + 1) = Config.toggleOff) : j + 1 < n := by
  by_contra hge
  have := prefixSum_mono m (Nat.le_of_not_lt hge)
  omega

variable (hu : ∀ k < n, ∃ v, m.entry k = some v ∧ 1 ≤ v.toNat)
include hu

/-- At most one entry ends at offset 18. -/
theorem eq_of_prefixSum_eq {i j : Nat} (hi : prefixSum m (i + 1) = Config.toggleOff)
    (hj : prefixSum m (j + 1) = Config.toggleOff) : i = j := by
  wlog hij : i ≤ j generalizing i j
  · exact (this hj hi (Nat.le_of_not_le hij)).symm
  have hjn := succ_lt_of_prefixSum_eq hlong hj
  have hle := add_le_prefixSum_of_units hu (i + 1) (d := j - i) (by omega)
  rw [show i + 1 + (j - i) = j + 1 by omega] at hle
  omega

variable (hn : n ≤ Config.cap)
include hn

/-- The walk finds the entry that ends at offset 18. -/
theorem toggleEntry_of_prefixSum_eq {j : Nat} (hj : prefixSum m (j + 1) = Config.toggleOff) :
    toggleEntry m = .ok (some j) := by
  rcases findToggle_of_units (idx := 0) (fuel := Config.cap) hn hu hlong (by simp) (by omega) with
    ⟨i, hfound, -, hi⟩ | ⟨-, hnone⟩
  · rwa [eq_of_prefixSum_eq hlong hu hi hj] at hfound
  · exact absurd hj (hnone j (Nat.zero_le j))

/-- Where no entry ends at offset 18 the compensation changes nothing. -/
theorem compensate_of_no_toggle (hno : ∀ j, prefixSum m (j + 1) ≠ Config.toggleOff) : compensate m = .ok m := by
  rcases findToggle_of_units (idx := 0) (fuel := Config.cap) hn hu hlong (by simp) (by omega) with
    ⟨i, -, -, hi⟩ | ⟨hnone, -⟩
  · exact absurd hi (hno i)
  · exact compensate_eq_ok.2 (.inl ⟨hnone, rfl⟩)

/-- Where entry `j` ends at offset 18 the compensation takes 1 from it and from the entry after it. -/
theorem compensate_of_toggle {j : Nat} (hj : prefixSum m (j + 1) = Config.toggleOff) :
    ∃ t, compensate m = .ok t ∧
      ∀ k, t.entry k = if k = j ∨ k = j + 1 then (m.entry k).map (· - 1#3) else m.entry k := by
  have hjn := succ_lt_of_prefixSum_eq hlong hj
  obtain ⟨a, ha, ha1⟩ := hu j (by omega)
  obtain ⟨b, hb, hb1⟩ := hu (j + 1) hjn
  have hfirst : seqDecrement m j = .ok (m.insert j (a - 1#3)) :=
    seqDecrement_eq_ok.2 ⟨by omega, a, ha, by rintro rfl; simp at ha1, rfl⟩
  have hb' : (m.insert j (a - 1#3)).entry (j + 1) = some b := by
    rw [Memory.entry_insert_of_ne _ _ (Nat.succ_ne_self j), hb]
  have hsecond : seqDecrement (m.insert j (a - 1#3)) (j + 1) =
      .ok ((m.insert j (a - 1#3)).insert (j + 1) (b - 1#3)) :=
    seqDecrement_eq_ok.2 ⟨by omega, b, hb', by rintro rfl; simp at hb1, rfl⟩
  refine ⟨_, compensate_eq_ok.2 (.inr ⟨j, _, toggleEntry_of_prefixSum_eq hlong hu hn hj, hfirst, hsecond⟩), fun k => ?_⟩
  rw [Memory.entry_insert, Memory.entry_insert]
  by_cases hkb : k = j + 1
  · rw [if_pos hkb, if_pos (.inr hkb), hkb, hb]
    rfl
  · rw [if_neg hkb]
    by_cases hka : k = j
    · rw [if_pos hka, if_pos (.inl hka), hka, ha]
      rfl
    · rw [if_neg hka, if_neg (by simp [hka, hkb])]

/-- The compensation of entries that hold units answers. -/
theorem compensate_answers : ∃ t, compensate m = .ok t := by
  by_cases h : ∃ j, prefixSum m (j + 1) = Config.toggleOff
  · obtain ⟨j, hj⟩ := h
    obtain ⟨t, ht, -⟩ := compensate_of_toggle hlong hu hn hj
    exact ⟨t, ht⟩
  · exact ⟨m, compensate_of_no_toggle hlong hu hn (not_exists.1 h)⟩

end

/-! ### The buffered message -/

/-- A buffered message passes offset 18. -/
theorem State.Inv.toggleOff_lt {s : State} (hs : s.Inv) (hready : s.msgReady = true) :
    Config.toggleOff < prefixSum s.seq s.cursor.toNat := by
  obtain ⟨hlong, -⟩ := hs.message_length hready
  exact Nat.lt_of_lt_of_le (by decide) hlong

/-- The header's entries end at offsets 6, 8 and 9 (R133). -/
theorem HeaderHolds.offsets {m : Memory} (h : HeaderHolds m) :
    prefixSum m 1 = 6 ∧ prefixSum m 2 = 8 ∧ prefixSum m 3 = 9 := by
  obtain ⟨h0, h1, h2⟩ := h
  simp [prefixSum_succ, entryUnits_of_entry h0, entryUnits_of_entry h1, entryUnits_of_entry h2]

/-- Behind a valid header the entry that ends at offset 18 is one of the entries 3 to 12 (R134): the header ends at 9,
and every entry behind the leader's 6 units moves the offset on. -/
theorem HeaderHolds.toggle_bounds {m : Memory} {n j : Nat} (h : HeaderHolds m)
    (hu : ∀ k < n, ∃ v, m.entry k = some v ∧ 1 ≤ v.toNat) (hjn : j + 1 ≤ n)
    (hj : prefixSum m (j + 1) = 18) : 3 ≤ j ∧ j ≤ 12 := by
  obtain ⟨hleader, -, hhead⟩ := h.offsets
  constructor
  · by_contra hlt
    have := prefixSum_mono m (show j + 1 ≤ 3 by omega)
    omega
  · have := add_le_prefixSum_of_units hu 1 (d := j) (by omega)
    rw [Nat.add_comm 1 j] at this
    omega

/-- The entry that lost 1 held one unit more. -/
theorem entryUnits_of_decremented {m t : Memory} {k : Nat} {v : Entry} (hv : m.entry k = some v) (hpos : 1 ≤ v.toNat)
    (ht : t.entry k = (m.entry k).map (· - 1#3)) : entryUnits t k + 1 = entryUnits m k := by
  rw [hv, Option.map_some] at ht
  rw [entryUnits_of_entry ht, entryUnits_of_entry hv]
  bv_omega

/-- Settles O37. -/
theorem compensationDecrementsAtEighteen : Obligations.CompensationDecrementsAtEighteen := by
  unfold Obligations.CompensationDecrementsAtEighteen
  intro s hs hready hhead
  have hlong := hs.toggleOff_lt hready
  by_cases h : ∃ i, prefixSum s.seq (i + 1) = 18
  · obtain ⟨i, hi⟩ := h
    obtain ⟨m, hm, hentry⟩ := compensate_of_toggle hlong hs.units hs.cursor_le hi
    refine ⟨m, hm, fun j hj => ?_, fun hno => absurd hi (hno i)⟩
    obtain rfl := eq_of_prefixSum_eq hlong hs.units hi hj
    have hin := succ_lt_of_prefixSum_eq hlong hj
    obtain ⟨hlow, hhigh⟩ := hhead.toggle_bounds hs.units hin.le hj
    obtain ⟨a, ha, ha1⟩ := hs.units i (by omega)
    obtain ⟨b, hb, hb1⟩ := hs.units (i + 1) hin
    refine ⟨hlow, hhigh, hin, fun j' hj' => eq_of_prefixSum_eq hlong hs.units hj' hj, ?_, ?_, fun k hk hk' => ?_⟩
    · exact entryUnits_of_decremented ha ha1 ((hentry i).trans (if_pos (.inl rfl)))
    · exact entryUnits_of_decremented hb hb1 ((hentry (i + 1)).trans (if_pos (.inr rfl)))
    · exact (hentry k).trans (if_neg (not_or.2 ⟨hk, hk'⟩))
  · have hno := not_exists.1 h
    exact ⟨s.seq, compensate_of_no_toggle hlong hs.units hs.cursor_le hno, fun j hj => absurd hj (hno j), fun _ => rfl⟩

end Sys2Proof.Machine
end

section
/-! PROOFS. The samples of DEMODULATE (spec/41_decoder.md rule R135): what their packing makes of them, and the loop's walk
as the declarative reading gives it. -/

namespace Sys2Proof.Machine

/-! ### Packing samples -/

/-- The number that samples make behind the number `c`, each shifted in from the right. -/
def sampleValue (c : Nat) (bits : List Bool) : Nat := bits.foldl (fun c b => 2 * c + b.toNat) c

theorem packSamples_eq (bits : List Bool) : packSamples bits = BitVec.ofNat 32 (sampleValue 0 bits) := rfl

@[simp] theorem sampleValue_nil (c : Nat) : sampleValue c [] = c := rfl

@[simp] theorem sampleValue_cons (c : Nat) (b : Bool) (bits : List Bool) :
    sampleValue c (b :: bits) = sampleValue (2 * c + b.toNat) bits := rfl

theorem sampleValue_append (c : Nat) (bits bits' : List Bool) :
    sampleValue c (bits ++ bits') = sampleValue (sampleValue c bits) bits' := List.foldl_append

/-- Samples fill the bits below the number they are shifted behind. -/
theorem sampleValue_bounds (c : Nat) (bits : List Bool) :
    c * 2 ^ bits.length ≤ sampleValue c bits ∧ sampleValue c bits < (c + 1) * 2 ^ bits.length := by
  induction bits generalizing c with
  | nil => simp
  | cons b bits ih =>
    obtain ⟨hlow, hhigh⟩ := ih (2 * c + b.toNat)
    have hb : b.toNat ≤ 1 := b.toNat_le
    rw [sampleValue_cons, List.length_cons, Nat.pow_succ']
    constructor
    · calc c * (2 * 2 ^ bits.length) = 2 * c * 2 ^ bits.length := by ring
        _ ≤ (2 * c + b.toNat) * 2 ^ bits.length := Nat.mul_le_mul_right _ (by omega)
        _ ≤ _ := hlow
    · calc sampleValue (2 * c + b.toNat) bits < (2 * c + b.toNat + 1) * 2 ^ bits.length := hhigh
        _ ≤ (2 * (c + 1)) * 2 ^ bits.length := Nat.mul_le_mul_right _ (by omega)
        _ = (c + 1) * (2 * 2 ^ bits.length) := by ring

/-- One more sample is what a turn of the loop does to CODE. -/
theorem packSamples_concat (bits : List Bool) (b : Bool) :
    packSamples (bits ++ [b]) = (packSamples bits <<< 1) ||| (BitVec.ofBool b).setWidth 32 := by
  rw [packSamples_eq, packSamples_eq, sampleValue_append, sampleValue_cons, sampleValue_nil]
  generalize sampleValue 0 bits = c
  have hshift : BitVec.ofNat 32 c <<< 1 = BitVec.ofNat 32 (2 * c) := by
    refine BitVec.eq_of_toNat_eq ?_
    simp [Nat.shiftLeft_eq]
    omega
  rw [hshift]
  cases b with
  | false => simp
  | true =>
    have hor : 2 * c + 1 = 2 * c ||| 1 := Nat.two_pow_add_eq_or_of_lt (i := 1) (by decide) c
    rw [Bool.toNat_true, hor, BitVec.ofNat_or]
    rfl

/-- A first sample of 1 and fewer than 32 behind it: no bit is lost, and the first sample is the highest bit (R138). -/
theorem packSamples_bounds {bits : List Bool} (hlen : bits.length < 32) :
    (packSamples (true :: bits)).toNat < 2 ^ (bits.length + 1) ∧
      (packSamples (true :: bits)).getLsbD bits.length = true := by
  obtain ⟨hlow, hhigh⟩ := sampleValue_bounds 1 bits
  have hword : 2 ^ (bits.length + 1) ≤ 2 ^ 32 := Nat.pow_le_pow_right (by decide) (by omega)
  have hvalue : (packSamples (true :: bits)).toNat = sampleValue 1 bits := by
    rw [packSamples_eq, BitVec.toNat_ofNat]
    exact Nat.mod_eq_of_lt (by rw [Nat.pow_succ] at hword; simp; omega)
  refine ⟨by rw [hvalue, Nat.pow_succ]; omega, ?_⟩
  rw [← BitVec.testBit_toNat, hvalue]
  exact Nat.testBit_of_two_pow_le_and_two_pow_add_one_gt (by omega) (by rw [Nat.pow_succ]; omega)

/-! ### The walk -/

/-- DEMODULATE's walk as it meets entry `k`, read off the entries before it. -/
def walkAt (m : Memory) (k : Nat) : Walk where
  off := Config.demodStart + (prefixSum m k - prefixSum m 2)
  idx := k
  lvl := levelAt k
  code := packSamples ((samplePoints m (k - 1)).map levelAt)
  samples := (samplePoints m (k - 1)).length

theorem walkAt_succ (m : Memory) (k : Nat) :
    walkAt m (k + 1) = ⟨demodOffset m k, k + 1, levelAt (k + 1), packSamples ((samplePoints m k).map levelAt),
      (samplePoints m k).length⟩ := rfl

theorem walkAt_two (m : Memory) : walkAt m 2 = ⟨Config.demodStart, 2, true, 0#32, 0⟩ := by
  simp [walkAt, samplePoints, levelAt, packSamples]

theorem demodulate_eq (m : Memory) : demodulate m = demodLoop m Config.cap (walkAt m 2) := by
  rw [walkAt_two]
  rfl

theorem levelAt_succ (k : Nat) : levelAt (k + 1) = !levelAt k := by
  simp only [levelAt, Nat.succ_mod_two_eq_zero_iff]
  rcases Nat.mod_two_eq_zero_or_one k with h | h <;> simp [h]

/-- The next entry is a sample point where its offset is odd. -/
theorem samplePoints_succ (m : Memory) {k : Nat} (hk : 1 ≤ k) :
    samplePoints m (k + 1) = samplePoints m k ++ if demodOffset m (k + 1) % 2 = 1 then [k + 1] else [] := by
  obtain ⟨n, rfl⟩ := Nat.exists_eq_add_of_le' hk
  have hrange : List.range' 2 (n + 1) = List.range' 2 n ++ [n + 2] := by
    rw [List.range'_1_concat, Nat.add_comm]
  simp only [samplePoints, Nat.add_sub_cancel, hrange, List.filter_append, List.filter_cons, List.filter_nil,
    decide_eq_true_eq]

/-- A turn on entry `k` takes the walk to entry `k + 1`. -/
theorem walkAt_turn {m : Memory} {k : Nat} {v : Entry} (hk : 2 ≤ k) (hv : m.entry k = some v) :
    (walkAt m k).turn v = walkAt m (k + 1) := by
  obtain ⟨n, rfl⟩ := Nat.exists_eq_add_of_le' (show 1 ≤ k by omega)
  have hmono := prefixSum_mono m hk
  have hoff : (walkAt m (n + 1)).off + v.toNat = demodOffset m (n + 1) := by
    simp only [walkAt, demodOffset, prefixSum_succ m (n + 1), entryUnits_of_entry hv]
    omega
  have hpoints := samplePoints_succ m (k := n) (by omega)
  rw [walkAt_succ m (n + 1), Walk.turn, hoff, hpoints]
  by_cases hodd : demodOffset m (n + 1) % 2 = 1
  · simp [hodd, walkAt_succ, packSamples_concat, levelAt_succ (n + 1)]
  · simp [hodd, walkAt_succ, levelAt_succ (n + 1)]

/-- The loop ends on the walk of the entry it ends at. -/
theorem eq_walkAt_of_demodLoop {m : Memory} {fuel k : Nat} {w : Walk} (hk : 2 ≤ k)
    (h : demodLoop m fuel (walkAt m k) = .ok w) : w = walkAt m w.idx := by
  induction fuel generalizing k with
  | zero =>
    obtain rfl := Except.ok.inj h
    rfl
  | succ fuel ih =>
    rcases demodLoop_succ_eq_ok.1 h with ⟨-, v, hv, hnext⟩ | ⟨-, rfl⟩
    · rw [walkAt_turn hk (seqRead_eq_ok.1 hv).2] at hnext
      exact ih (by omega) hnext
    · rfl

end Sys2Proof.Machine
end

section
/-! PROOFS. DECODE of a buffered message with a valid header (spec/41_decoder.md rules R132 to R136), and the bounds on its
code (R138). -/

namespace Sys2Proof.Machine

/-! ### The compensated sequence -/

/-- The compensation leaves the header alone: the header ends at 9, so the entry that ends at 18 stands behind it. -/
theorem HeaderHolds.of_compensate {m t : Memory} (h : HeaderHolds m) (ht : compensate m = .ok t) : HeaderHolds t := by
  obtain ⟨-, -, hnine⟩ := h.offsets
  have hkept : ∀ k < 3, t.entry k = m.entry k := fun k hk => compensate_entry ht fun j hj => by
    obtain ⟨-, -, hj⟩ := toggleEntry_eq_some hj
    have hbehind : 3 ≤ j := by
      by_contra hlt
      have := prefixSum_mono m (show j + 1 ≤ 3 by omega)
      simp only [Config.toggleOff] at hj
      omega
    omega
  obtain ⟨h0, h1, h2⟩ := h
  exact ⟨(hkept 0 (by decide)).trans h0, (hkept 1 (by decide)).trans h1, (hkept 2 (by decide)).trans h2⟩

theorem seqDecrement_entryUnits_le {m t : Memory} {i : Nat} (h : seqDecrement m i = .ok t) (k : Nat) :
    entryUnits t k ≤ entryUnits m k := by
  have hbefore := seqDecrement_prefixSum h k
  have hafter := seqDecrement_prefixSum h (k + 1)
  rw [prefixSum_succ, prefixSum_succ] at hafter
  split at hbefore <;> split at hafter <;> omega

/-- No entry grows by the compensation. -/
theorem compensate_entryUnits_le {m t : Memory} (h : compensate m = .ok t) (k : Nat) :
    entryUnits t k ≤ entryUnits m k := by
  rcases compensate_eq_ok.1 h with ⟨-, rfl⟩ | ⟨j, d, -, hd, ht⟩
  · exact Nat.le_refl _
  · exact (seqDecrement_entryUnits_le ht k).trans (seqDecrement_entryUnits_le hd k)

/-! ### The walk of a buffered message -/

/-- DEMODULATE answers with the walk behind the first entry whose offset reaches 49, and that entry is below the cursor:
of the message's 51 units the compensation leaves at least 49 (R134, R135). -/
theorem State.Inv.demodulate_eq_walkAt {s : State} {m : Memory} (hs : s.Inv) (hready : s.msgReady = true)
    (hhead : HeaderHolds s.seq) (hm : compensate s.seq = .ok m) :
    ∃ last, demodulate m = .ok (walkAt m (last + 1)) ∧ 2 ≤ last ∧ last < s.cursor.toNat ∧ 49 ≤ demodOffset m last ∧
      ∀ k, 2 ≤ k → k < last → demodOffset m k < 49 := by
  obtain ⟨hlong, -, hcursor⟩ := hs.message_length hready
  have hcap : s.cursor.toNat ≤ 44 := hs.cursor_le
  have hvalues : ∀ k < s.cursor.toNat, ∃ v, m.entry k = some v := fun k hk => by
    obtain ⟨v, hv, -⟩ := hs.entries k hk
    exact compensate_entry_some hm ⟨v, hv⟩
  obtain ⟨-, height, -⟩ := (hhead.of_compensate hm).offsets
  have hleft := (compensate_prefixSum hm s.cursor.toNat).2
  obtain ⟨w, hw, hidx, hle, hstop, hoff, hbelow⟩ := demodLoop_reaches_stop (w := walkAt m 2) (fuel := Config.cap)
    hs.cursor_le hvalues (show 2 ≤ _ by omega) (show _ ≤ 2 + 44 by omega) (by simp [walkAt, Config.demodStart, Config.demodStop]; omega)
  have hwalk := eq_walkAt_of_demodLoop (Nat.le_refl 2) hw
  rw [← demodulate_eq, hwalk] at hw
  rw [hwalk] at hstop
  generalize w.idx = idx at *
  simp only [walkAt, Config.demodStart, Config.demodStop, Nat.sub_self, Nat.add_zero] at hidx hstop hbelow
  have hpassed : idx ≠ 2 := by rintro rfl; omega
  obtain ⟨last, rfl⟩ := Nat.exists_eq_add_of_le' (show 1 ≤ idx by omega)
  exact ⟨last, hw, by omega, hle, hstop, fun k hk hkl => hbelow (k + 1) (by omega) (by omega)⟩

/-- Settles O38. -/
theorem demodulationSamplesOddOffsets : Obligations.DemodulationSamplesOddOffsets := by
  unfold Obligations.DemodulationSamplesOddOffsets
  intro s m hs hready hhead hm
  obtain ⟨last, hw, hlow, hlast, hstop, hbelow⟩ := hs.demodulate_eq_walkAt hready hhead hm
  exact ⟨_, last, hw, hlow, hlast, hstop, hbelow, rfl, rfl, rfl, rfl⟩

/-! ### The polls -/

/-- What DECODE of a message with a valid header leaves (R132 to R136). -/
def State.decoded (s : State) (m : Memory) (c : Code) : State :=
  ({ s.accept.consume with seq := m } : State).rearm.record (.decoded c)

/-- A poll of a buffered message with a valid header answers where the compensation and the demodulation do. -/
theorem pollMsg_of_ready {s : State} {m : Memory} {w : Walk} (hready : s.msgReady = true) (hhead : HeaderHolds s.seq)
    (hm : compensate s.seq = .ok m) (hw : demodulate m = .ok w) :
    pollMsg s.accept = .ok (s.decoded m w.code, some w.code) :=
  pollMsg_eq_ok.2 (.inr ⟨hready, decodeMsg_eq_ok.2 (.inr ⟨m, w, headerOk_eq_true.2 hhead, hm, hw, rfl, rfl⟩)⟩)

theorem exec_pollCode_of_ready {s : State} {m : Memory} {w : Walk} (hready : s.msgReady = true)
    (hhead : HeaderHolds s.seq) (hm : compensate s.seq = .ok m) (hw : demodulate m = .ok w) :
    exec .pollCode s = .next ((s.decoded m w.code).respond (.code (some w.code))) :=
  execPollCode_eq_next.2 ⟨_, _, pollMsg_of_ready hready hhead hm hw, rfl⟩

theorem exec_pollFields_of_ready {s : State} {m : Memory} {w : Walk} (hready : s.msgReady = true)
    (hhead : HeaderHolds s.seq) (hm : compensate s.seq = .ok m) (hw : demodulate m = .ok w) :
    exec .pollFields s = .next ((s.decoded m w.code).respond (.fields (some (fieldsOf w.code)))) :=
  execPollFields_eq_next.2 ⟨_, _, pollMsg_of_ready hready hhead hm hw, rfl⟩

/-- Settles O39. -/
theorem bufferedMessageIsDecoded : Obligations.BufferedMessageIsDecoded := by
  unfold Obligations.BufferedMessageIsDecoded
  intro s hs hready hhead
  obtain ⟨m, hm⟩ := compensate_answers (hs.toggleOff_lt hready) hs.units hs.cursor_le
  obtain ⟨last, hw, -⟩ := hs.demodulate_eq_walkAt hready hhead hm
  exact ⟨m, _, hm, hw,
    ⟨_, exec_pollCode_of_ready hready hhead hm hw, rfl, rfl, rfl, rfl, rfl, rfl, ⟨rfl, rfl⟩, rfl, rfl⟩,
    ⟨_, exec_pollFields_of_ready hready hhead hm hw, rfl, rfl, rfl, rfl, rfl, rfl, ⟨rfl, rfl⟩, rfl, rfl⟩⟩

/-! ### The samples of a buffered message -/

/-- Behind a valid header the start bit's entry is the first sample (R138). -/
theorem HeaderHolds.samplePoints_eq_cons {m : Memory} (h : HeaderHolds m) {last : Nat} (hlast : 2 ≤ last) :
    ∃ rest, samplePoints m last = 2 :: rest := by
  obtain ⟨n, rfl⟩ := Nat.exists_eq_add_of_le' hlast
  obtain ⟨-, height, hnine⟩ := h.offsets
  have hodd : demodOffset m 2 % 2 = 1 := by simp [demodOffset, Config.demodStart, height, hnine]
  exact ⟨_, List.filter_cons_of_pos (by simpa using hodd)⟩

/-- The samples up to entry `k` are at most the odd offsets passed, and one for each unit that `t` has lost against `m`,
whose entries hold units: only an entry that lost its unit repeats an offset (R138). -/
theorem samplePoints_length_le {m t : Memory} {n k : Nat} (hu : ∀ k < n, ∃ v, m.entry k = some v ∧ 1 ≤ v.toNat)
    (hle : ∀ k, entryUnits t k ≤ entryUnits m k) (hk : 1 ≤ k) (hkn : k < n) (h2 : prefixSum t 2 = prefixSum m 2) :
    2 * (samplePoints t k).length + 7 + 2 * prefixSum t (k + 1) ≤ demodOffset t k + 2 * prefixSum m (k + 1) := by
  induction k, hk using Nat.le_induction with
  | base =>
    simp [samplePoints, demodOffset, Config.demodStart, h2]
  | succ k hk ih =>
    have hbound := ih (by omega)
    obtain ⟨v, hv, hpos⟩ := hu (k + 1) hkn
    have hlost := hle (k + 1)
    rw [entryUnits_of_entry hv] at hlost
    have hmono := prefixSum_mono t (show 2 ≤ k + 1 by omega)
    have hoff : demodOffset t (k + 1) = demodOffset t k + entryUnits t (k + 1) := by
      simp only [demodOffset, prefixSum_succ t (k + 1)]
      omega
    rw [prefixSum_succ t (k + 1), prefixSum_succ m (k + 1), entryUnits_of_entry hv, samplePoints_succ t hk,
      List.length_append]
    by_cases hodd : demodOffset t (k + 1) % 2 = 1
    · rw [if_pos hodd, List.length_singleton]
      omega
    · rw [if_neg hodd, List.length_nil]
      omega

/-- A buffered message has at most 23 samples (R138). -/
theorem State.Inv.sample_count_le {s : State} {m : Memory} {last : Nat} (hs : s.Inv) (hhead : HeaderHolds s.seq)
    (hm : compensate s.seq = .ok m) (hlow : 2 ≤ last) (hlast : last < s.cursor.toNat)
    (hbelow : ∀ k, 2 ≤ k → k < last → demodOffset m k < 49) : (samplePoints m last).length ≤ 23 := by
  obtain ⟨k, rfl⟩ := Nat.exists_eq_add_of_le' (show 1 ≤ last by omega)
  obtain ⟨-, height, -⟩ := hhead.offsets
  obtain ⟨-, height', -⟩ := (hhead.of_compensate hm).offsets
  have hcount := samplePoints_length_le hs.units (compensate_entryUnits_le hm) (show 1 ≤ k by omega)
    (by omega) (height'.trans height.symm)
  have hlost := (compensate_prefixSum hm (k + 1)).2
  have hoff : demodOffset m k < 49 := by
    rcases Nat.lt_or_ge k 2 with hk | hk
    · obtain rfl : k = 1 := by omega
      simp [demodOffset, Config.demodStart]
    · exact hbelow k hk (by omega)
  have hone : (if demodOffset m (k + 1) % 2 = 1 then [k + 1] else []).length ≤ 1 := by split <;> simp
  rw [samplePoints_succ m (by omega), List.length_append]
  omega

/-- Settles O43. -/
theorem codeIsBoundedBySamples : Obligations.CodeIsBoundedBySamples := by
  unfold Obligations.CodeIsBoundedBySamples
  intro s m w hs hready hhead hm hw
  obtain ⟨last, hw', hlow, hlast, -, hbelow⟩ := hs.demodulate_eq_walkAt hready hhead hm
  obtain rfl := Except.ok.inj (hw'.symm.trans hw)
  have hcount := hs.sample_count_le hhead hm hlow hlast hbelow
  obtain ⟨rest, hrest⟩ := (hhead.of_compensate hm).samplePoints_eq_cons hlow
  rw [hrest, List.length_cons] at hcount
  have hsamples : (walkAt m (last + 1)).samples = rest.length + 1 := congrArg List.length hrest
  have hcode : (walkAt m (last + 1)).code = packSamples (true :: rest.map levelAt) :=
    congrArg (fun p : List Nat => packSamples (p.map levelAt)) hrest
  obtain ⟨hlt, htop⟩ := packSamples_bounds (bits := rest.map levelAt) (by rw [List.length_map]; omega)
  rw [List.length_map] at hlt htop
  rw [hsamples, hcode]
  refine ⟨by omega, hcount, hlt, hlt.trans_le ?_, htop⟩
  exact Nat.pow_le_pow_right (by decide) hcount

end Sys2Proof.Machine
end

section
/-! PROOFS. The decoder on a sequence that holds given units: the compensation (spec/41_decoder.md rule R134) and the
demodulation of alternating runs (R135). -/

namespace Sys2Proof.Machine

/-! ### Entries that hold given units -/

section
variable {m : Memory} {us : List Nat} (h : HoldsUnits m us)
include h

theorem HoldsUnits.entry {k u : Nat} (hk : us[k]? = some u) : ∃ v, m.entry k = some v ∧ v.toNat = u := by
  obtain ⟨hlt, -⟩ := List.getElem?_eq_some_iff.1 hk
  exact Option.map_eq_some_iff.1 ((h k hlt).trans hk)

theorem HoldsUnits.units (hpos : ∀ u ∈ us, 1 ≤ u) : ∀ k < us.length, ∃ v, m.entry k = some v ∧ 1 ≤ v.toNat := by
  intro k hk
  obtain ⟨v, hv, hvu⟩ := h.entry (List.getElem?_eq_getElem hk)
  exact ⟨v, hv, hvu ▸ hpos _ (List.getElem_mem hk)⟩

theorem HoldsUnits.prefixSum_eq {k : Nat} (hk : k ≤ us.length) : prefixSum m k = (us.take k).sum := by
  induction k with
  | zero => rfl
  | succ k ih =>
    obtain ⟨v, hv, hvu⟩ := h.entry (List.getElem?_eq_getElem hk)
    rw [prefixSum_succ, ih (by omega), entryUnits_of_entry hv, hvu, List.sum_take_succ us k hk]

end

/-- Where the unit before offset 18 ends there exactly, the compensation takes 1 from it and from the unit behind it. -/
theorem HoldsUnits.compensate_toggle {m : Memory} {xs zs : List Nat} {x y : Nat}
    (h : HoldsUnits m (xs ++ (x + 1) :: (y + 1) :: zs)) (hpos : ∀ u ∈ xs ++ (x + 1) :: (y + 1) :: zs, 1 ≤ u)
    (hlen : (xs ++ (x + 1) :: (y + 1) :: zs).length ≤ 44) (hsum : xs.sum + (x + 1) = 18) :
    ∃ t, compensate m = .ok t ∧ HoldsUnits t (xs ++ x :: y :: zs) := by
  have htoggle : prefixSum m (xs.length + 1) = 18 := by
    rw [h.prefixSum_eq (by simp), List.take_length_add_append]
    simpa using hsum
  have hlong : 18 < prefixSum m (xs ++ (x + 1) :: (y + 1) :: zs).length := by
    rw [h.prefixSum_eq (Nat.le_refl _), List.take_length]
    simp
    omega
  obtain ⟨t, ht, hentry⟩ := compensate_of_toggle hlong (h.units hpos) hlen htoggle
  refine ⟨t, ht, fun k hk => ?_⟩
  have hold := h k (by simpa using hk)
  rw [hentry]
  rcases Nat.lt_or_ge k xs.length with hlt | hge
  · rw [if_neg (by omega), hold, List.getElem?_append_left hlt, List.getElem?_append_left hlt]
  · obtain ⟨i, rfl⟩ := Nat.exists_eq_add_of_le hge
    rw [List.getElem?_append_right hge, Nat.add_sub_cancel_left] at hold ⊢
    match i with
    | 0 | 1 =>
      obtain ⟨v, hv, hvu⟩ := Option.map_eq_some_iff.1 hold
      rw [if_pos (by omega), hv]
      simp
      bv_omega
    | i + 2 =>
      rw [if_neg (by omega)]
      exact hold

/-! ### Runs of alternating levels -/

/-- The levels of the runs that end at odd offsets, from offset `off` on. -/
def oddLevels (off : Nat) : List Level → List Bool
  | [] => []
  | (l, n) :: rs => (if (off + n) % 2 = 1 then [l] else []) ++ oddLevels (off + n) rs

/-- The levels of the runs alternate, from the level `l` on. -/
def Alternates (l : Bool) : List Level → Prop
  | [] => True
  | r :: rs => r.1 = l ∧ Alternates (!l) rs

/-- The walk has taken the samples `bits` so far. -/
structure Walk.Sampled (w : Walk) (bits : List Bool) : Prop where
  code : w.code = packSamples bits
  samples : w.samples = bits.length

/-- A turn takes the level as a sample where it ends at an odd offset. -/
theorem Walk.Sampled.turn {w : Walk} {bits : List Bool} (h : w.Sampled bits) (v : Entry) :
    (w.turn v).Sampled (bits ++ if (w.off + v.toNat) % 2 = 1 then [w.lvl] else []) := by
  by_cases hodd : (w.off + v.toNat) % 2 = 1
  · exact ⟨by simp [Walk.turn, hodd, h.code, packSamples_concat], by simp [Walk.turn, hodd, h.samples]⟩
  · exact ⟨by simp [Walk.turn, hodd, h.code], by simp [Walk.turn, hodd, h.samples]⟩

/-- The loop on entries that hold alternating runs up to offset 49: it samples the levels at the odd offsets. By induction
on the runs to come, `done` the units passed and `bits` the samples taken. -/
theorem demodLoop_of_runs {m : Memory} {rs : List Level} {fuel : Nat} {w : Walk} {done : List Nat} {bits : List Bool}
    (h : HoldsUnits m (done ++ rs.map Prod.snd)) (halt : Alternates w.lvl rs) (hpos : ∀ r ∈ rs, 1 ≤ r.2)
    (hsum : w.off + (rs.map Prod.snd).sum = 49) (hidx : w.idx = done.length) (hcap : done.length + rs.length ≤ 44)
    (hfuel : rs.length ≤ fuel) (hbits : w.Sampled bits) :
    ∃ w', demodLoop m fuel w = .ok w' ∧ w'.Sampled (bits ++ oddLevels w.off rs) := by
  induction rs generalizing fuel w done bits with
  | nil =>
    refine ⟨w, ?_, by rwa [oddLevels, List.append_nil]⟩
    have hstop : ¬w.off < Config.demodStop := Nat.not_lt.2 (Nat.le_of_eq hsum.symm)
    cases fuel with
    | zero => rfl
    | succ fuel => rw [demodLoop_succ, if_neg (by simp [hstop])]
  | cons r rs ih =>
    obtain ⟨l, n⟩ := r
    obtain ⟨rfl, halt⟩ : l = w.lvl ∧ Alternates (!w.lvl) rs := halt
    obtain ⟨hn, hrest⟩ := List.forall_mem_cons.1 hpos
    rw [List.map_cons, List.sum_cons] at hsum
    rw [List.length_cons] at hcap hfuel
    obtain ⟨fuel, rfl⟩ := Nat.exists_eq_add_of_le' (show 1 ≤ fuel by omega)
    obtain ⟨v, hv, rfl⟩ := h.entry (k := done.length) (u := n) (by simp)
    have hv1 : 1 ≤ v.toNat := hn
    have hmore : w.off < 49 := by omega
    have hread : seqRead m w.idx = .ok v := by rw [hidx]; exact seqRead_of_entry (show _ < 44 by omega) hv
    obtain ⟨w', hw', hbits'⟩ := ih (fuel := fuel) (w := w.turn v) (done := done ++ [v.toNat])
      (by simpa using h) halt hrest (by simp only [Walk.turn]; omega) (by simp [Walk.turn, hidx]) (by simp; omega)
      (by omega) (hbits.turn v)
    rw [List.append_assoc] at hbits'
    exact ⟨w', demodLoop_succ_eq_ok.2 (.inl ⟨⟨hmore, show _ < 44 by omega⟩, v, hread, hw'⟩), hbits'⟩

/-- DEMODULATE of the leader and alternating runs that start with a mark and end at offset 49 (R135). -/
theorem demodulate_of_runs {m : Memory} {rs : List Level} (h : HoldsUnits m (6 :: 2 :: rs.map Prod.snd))
    (halt : Alternates true rs) (hpos : ∀ r ∈ rs, 1 ≤ r.2) (hsum : (rs.map Prod.snd).sum = 41)
    (hlen : rs.length ≤ 42) : ∃ w, demodulate m = .ok w ∧ w.Sampled (oddLevels 8 rs) :=
  demodLoop_of_runs (w := ⟨8, 2, true, 0#32, 0⟩) (done := [6, 2]) (bits := []) h halt hpos
    (by simp [hsum]) rfl (by simp; omega) (show _ ≤ 44 by omega) ⟨rfl, rfl⟩

end Sys2Proof.Machine
end

section
/-! PROOFS. The decode of a well-formed frame (spec/41_decoder.md rules R139, R140): the compensation makes the toggle bit
as wide as the others, and then every bit is sampled at its middle. -/

namespace Sys2Proof.Machine

/-! ### Merging, one stretch at a time -/

/-- A stretch put before runs: it lengthens the first one, or is a run of its own. -/
def pushRun (c : Level) : List Level → List Level
  | [] => [c]
  | r :: rs => if c.1 = r.1 then (c.1, c.2 + r.2) :: rs else c :: r :: rs

theorem mergeLevels_cons (c : Level) (ls : List Level) : mergeLevels (c :: ls) = pushRun c (mergeLevels ls) := by
  rw [mergeLevels]
  cases mergeLevels ls <;> rfl

theorem pushRun_append (c : Level) {rs : List Level} (h : rs ≠ []) (rs' : List Level) :
    pushRun c (rs ++ rs') = pushRun c rs ++ rs' := by
  cases rs with
  | nil => exact absurd rfl h
  | cons r rs =>
    simp only [List.cons_append, pushRun]
    split <;> rfl

/-- The first run grows with the first stretch. -/
theorem mergeLevels_cons_width (l : Bool) (ls : List Level) :
    ∃ k rs, ∀ n, mergeLevels ((l, n) :: ls) = (l, k + n) :: rs := by
  simp only [mergeLevels_cons]
  cases mergeLevels ls with
  | nil => exact ⟨0, [], fun n => by simp [pushRun]⟩
  | cons r rs =>
    by_cases hl : l = r.1
    · exact ⟨r.2, rs, fun n => by simp [pushRun, hl, Nat.add_comm]⟩
    · exact ⟨0, r :: rs, fun n => by simp [pushRun, hl]⟩

/-- The last run grows with the last stretch. -/
theorem mergeLevels_concat_width (ls : List Level) (l : Bool) :
    ∃ rs k, ∀ n, mergeLevels (ls ++ [(l, n)]) = rs ++ [(l, k + n)] := by
  induction ls with
  | nil => exact ⟨[], 0, fun n => by simp [mergeLevels]⟩
  | cons c ls ih =>
    obtain ⟨rs, k, h⟩ := ih
    simp only [List.cons_append, mergeLevels_cons, h]
    cases rs with
    | nil =>
      by_cases hl : c.1 = l
      · exact ⟨[], c.2 + k, fun n => by simp [pushRun, hl, Nat.add_assoc]⟩
      · exact ⟨[c], k, fun n => by simp [pushRun, hl]⟩
    | cons r rs => exact ⟨pushRun c (r :: rs), k, fun n => pushRun_append c (List.cons_ne_nil r rs) _⟩

/-- Where the level changes, the runs on both sides are those of the two parts. -/
theorem mergeLevels_append_cons_not (xs : List Level) (l : Bool) (n k : Nat) (ys : List Level) :
    mergeLevels (xs ++ (l, n) :: (!l, k) :: ys) = mergeLevels (xs ++ [(l, n)]) ++ mergeLevels ((!l, k) :: ys) := by
  induction xs with
  | nil => exact mergeLevels_cons_cons_not l n k ys
  | cons c xs ih =>
    have hne : mergeLevels (xs ++ [(l, n)]) ≠ [] := by
      obtain ⟨rs, i, h⟩ := mergeLevels_concat_width xs l
      simp [h]
    rw [List.cons_append, List.cons_append, mergeLevels_cons, mergeLevels_cons, ih, pushRun_append c hne]

/-- The width of a bit's halves shows in the lengths of the two runs that meet in its middle, and there only. -/
theorem mergeLevels_bit_width (xs : List Level) (b : Bool) (ys : List Level) :
    ∃ pre x y post, pre.sum + x = (xs.map Prod.snd).sum ∧ ∀ w,
      (mergeLevels (xs ++ (b, w) :: (!b, w) :: ys)).map Prod.snd = pre ++ (x + w) :: (y + w) :: post := by
  obtain ⟨pre, x, hpre⟩ := mergeLevels_concat_width xs b
  obtain ⟨y, post, hpost⟩ := mergeLevels_cons_width (!b) ys
  refine ⟨pre.map Prod.snd, x, y, post.map Prod.snd, ?_, fun w => ?_⟩
  · have hsum := mergeLevels_sum (xs ++ [(b, 0)])
    rw [hpre] at hsum
    simpa using hsum
  · rw [mergeLevels_append_cons_not, hpre, hpost]
    simp

/-- Merged runs alternate from the first stretch's level on. -/
theorem alternates_mergeLevels (l : Bool) (n : Nat) (ls : List Level) :
    Alternates l (mergeLevels ((l, n) :: ls)) := by
  induction ls generalizing l n with
  | nil => exact ⟨rfl, trivial⟩
  | cons c ls ih =>
    obtain ⟨k, rs, h⟩ := mergeLevels_cons_level c.1 c.2 ls
    have hbehind := ih c.1 c.2
    rw [h] at hbehind
    obtain ⟨-, halt⟩ := hbehind
    rw [mergeLevels_cons, h, pushRun]
    by_cases hl : l = c.1
    · rw [if_pos hl]
      exact ⟨rfl, hl ▸ halt⟩
    · rw [if_neg hl]
      have hnot : c.1 = !l := by cases l <;> simp_all
      exact ⟨rfl, hnot, hnot ▸ halt⟩

/-! ### Bits of one width -/

/-- Bits of 1-unit halves from an even offset on, and half a bit behind them: the odd offsets are the middles of the bits,
where a run ends and the level is the bit's own value. -/
theorem oddLevels_mergeLevels_bitLevels {off : Nat} (heven : off % 2 = 0) (bits : List Bool) (b : Bool) :
    oddLevels off (mergeLevels (bitLevels (bits.map (Prod.mk 1)) ++ [(b, 1)])) = bits ++ [b] := by
  induction bits generalizing off with
  | nil => simp [bitLevels, mergeLevels, oddLevels]; omega
  | cons a bits ih =>
    have hrest := ih (off := off + 2) (by omega)
    rw [List.map_cons, bitLevels_cons, List.cons_append, List.cons_append, mergeLevels_cons_cons_not, oddLevels,
      if_pos (by omega), mergeLevels_cons]
    refine congrArg (a :: ·) (?_ : oddLevels (off + 1) (pushRun (!a, 1) _) = bits ++ [b])
    cases hruns : mergeLevels (bitLevels (bits.map (Prod.mk 1)) ++ [(b, 1)]) with
    | nil => simp [hruns, oddLevels] at hrest
    | cons r rs =>
      rw [hruns, oddLevels] at hrest
      by_cases hl : (!a) = r.1
      · have hoff : off + 1 + (1 + r.2) = off + 2 + r.2 := by omega
        rw [pushRun, if_pos hl, oddLevels, hoff, hl, hrest]
      · rw [pushRun, if_neg hl, oddLevels, if_neg (show ¬(off + 1 + 1) % 2 = 1 by omega)]
        exact hrest

/-! ### The frame's bits as a code -/

/-- The bits of the frame, in the order of their middles (R139). -/
def frameSamples (f : Fields) : List Bool :=
  true :: msbFirst f.mode ++ f.toggle :: msbFirst f.group ++ msbFirst f.cmd

/-- A field's bits shift its value in. -/
theorem sampleValue_msbFirst {n : Nat} (c : Nat) (v : BitVec n) :
    sampleValue c (msbFirst v) = c * 2 ^ n + v.toNat := by
  have hlow : ∀ k, sampleValue c ((List.range k).reverse.map v.getLsbD) = c * 2 ^ k + v.toNat % 2 ^ k := by
    intro k
    induction k generalizing c with
    | zero => simp [Nat.mod_one]
    | succ k ih =>
      rw [List.range_succ, List.reverse_append, List.reverse_singleton, List.singleton_append, List.map_cons,
        sampleValue_cons, ih, Nat.mod_pow_succ, ← BitVec.testBit_toNat, Nat.toNat_testBit]
      ring
  rw [msbFirst, hlow, Nat.mod_eq_of_lt v.isLt]

theorem sampleValue_frameSamples (f : Fields) :
    sampleValue 0 (frameSamples f) =
      2 ^ 20 + f.mode.toNat * 2 ^ 17 + f.toggle.toNat * 2 ^ 16 + f.group.toNat * 2 ^ 8 + f.cmd.toNat := by
  simp only [frameSamples, List.cons_append, sampleValue_cons, sampleValue_append, sampleValue_msbFirst,
    Bool.toNat_true]
  omega

/-- A field of a code, at bit `k`. -/
theorem toNat_setWidth_shiftLeft {n k : Nat} (v : BitVec n) (h : n + k ≤ 32) :
    (v.setWidth 32 <<< k : Code).toNat = v.toNat <<< k := by
  have hfield : v.toNat < 2 ^ 32 := v.isLt.trans_le (Nat.pow_le_pow_right (by decide) (by omega))
  have hplaced : v.toNat * 2 ^ k < 2 ^ 32 := calc
    v.toNat * 2 ^ k < 2 ^ n * 2 ^ k := Nat.mul_lt_mul_of_pos_right v.isLt (Nat.two_pow_pos k)
    _ = 2 ^ (n + k) := (Nat.pow_add ..).symm
    _ ≤ 2 ^ 32 := Nat.pow_le_pow_right (by decide) h
  rw [BitVec.toNat_shiftLeft, BitVec.toNat_setWidth, Nat.mod_eq_of_lt hfield, Nat.mod_eq_of_lt]
  rwa [Nat.shiftLeft_eq]

/-- The parts of the frame's code stand in bits of their own, so that they add up. -/
theorem frameCode_toNat (f : Fields) :
    (frameCode f).toNat =
      2 ^ 20 + f.mode.toNat * 2 ^ 17 + f.toggle.toNat * 2 ^ 16 + f.group.toNat * 2 ^ 8 + f.cmd.toNat := by
  have hmode := f.mode.isLt
  have htoggle := f.toggle.toNat_le
  have hgroup := f.group.isLt
  have hcmd := f.cmd.isLt
  have hcmd' := toNat_setWidth_shiftLeft (k := 0) f.cmd (by decide)
  rw [BitVec.shiftLeft_zero, Nat.shiftLeft_zero] at hcmd'
  have hstart : (0x00100000#32).toNat = 1 <<< 20 := rfl
  rw [frameCode, BitVec.toNat_or, BitVec.toNat_or, BitVec.toNat_or, BitVec.toNat_or, hstart,
    toNat_setWidth_shiftLeft f.mode (by decide), toNat_setWidth_shiftLeft (BitVec.ofBool f.toggle) (by decide),
    toNat_setWidth_shiftLeft f.group (by decide), hcmd', BitVec.toNat_ofBool, Nat.lor_assoc, Nat.lor_assoc,
    Nat.lor_assoc]
  have h8 := Nat.shiftLeft_add_eq_or_of_lt hcmd f.group.toNat
  have h16 := Nat.shiftLeft_add_eq_or_of_lt (i := 16) (b := f.group.toNat <<< 8 + f.cmd.toNat)
    (by rw [Nat.shiftLeft_eq]; omega) f.toggle.toNat
  have h17 := Nat.shiftLeft_add_eq_or_of_lt (i := 17)
    (b := f.toggle.toNat <<< 16 + (f.group.toNat <<< 8 + f.cmd.toNat))
    (by simp only [Nat.shiftLeft_eq]; omega) f.mode.toNat
  have h20 := Nat.shiftLeft_add_eq_or_of_lt (i := 20)
    (b := f.mode.toNat <<< 17 + (f.toggle.toNat <<< 16 + (f.group.toNat <<< 8 + f.cmd.toNat)))
    (by simp only [Nat.shiftLeft_eq]; omega) 1
  rw [← h8, ← h16, ← h17, ← h20]
  simp only [Nat.shiftLeft_eq]
  omega

theorem packSamples_frameSamples (f : Fields) : packSamples (frameSamples f) = frameCode f := by
  refine BitVec.eq_of_toNat_eq ?_
  have hmode := f.mode.isLt
  have htoggle := f.toggle.toNat_le
  have hgroup := f.group.isLt
  have hcmd := f.cmd.isLt
  rw [packSamples_eq, BitVec.toNat_ofNat, sampleValue_frameSamples, frameCode_toNat]
  omega

/-- The fields of the frame's code are the frame's own. -/
theorem fieldsOf_frameCode (f : Fields) : fieldsOf (frameCode f) = f := by
  obtain ⟨htoggle, hmode, hgroup, hcmd⟩ := fieldsFollowPackedLayout (frameCode f)
  have hmode' := f.mode.isLt
  have hbound := f.toggle.toNat_le
  have hgroup' := f.group.isLt
  have hcmd' := f.cmd.isLt
  have hbit := Nat.toNat_testBit (frameCode f).toNat 16
  rw [BitVec.testBit_toNat, ← htoggle] at hbit
  rw [frameCode_toNat] at hbit hmode hgroup hcmd
  have htoggle' : (fieldsOf (frameCode f)).toggle.toNat = f.toggle.toNat := by omega
  rw [Fields.mk.injEq]
  refine ⟨?_, BitVec.eq_of_toNat_eq (by omega), BitVec.eq_of_toNat_eq (by omega), BitVec.eq_of_toNat_eq (by omega)⟩
  exact Bool.eq_iff_iff.2 (by rw [← Bool.toNat_eq_one, ← Bool.toNat_eq_one, htoggle'])

/-! ### The frame behind the compensation -/

/-- The bits before the toggle bit. -/
def headBits (f : Fields) : List Bool := true :: msbFirst f.mode

/-- The bits behind the toggle bit, but the last. -/
def tailBits (f : Fields) : List Bool := msbFirst f.group ++ (List.range' 1 7).reverse.map f.cmd.getLsbD

theorem frameSamples_eq (f : Fields) :
    frameSamples f = headBits f ++ f.toggle :: tailBits f ++ [f.cmd.getLsbD 0] := rfl

/-- The core of the frame with a toggle bit of `w`-unit halves. -/
def coreOfWidth (w : Nat) (f : Fields) : List Level :=
  bitLevels ((headBits f).map (Prod.mk 1)) ++ (f.toggle, w) :: (!f.toggle, w) ::
    (bitLevels ((tailBits f).map (Prod.mk 1)) ++ [(f.cmd.getLsbD 0, 1)])

theorem coreOfWidth_two (f : Fields) : coreOfWidth 2 f = frameCore f := rfl

/-- With a toggle bit of 1-unit halves all bits of the core are of one width. -/
theorem coreOfWidth_one (f : Fields) :
    coreOfWidth 1 f =
      bitLevels ((headBits f ++ f.toggle :: tailBits f).map (Prod.mk 1)) ++ [(f.cmd.getLsbD 0, 1)] := by
  simp [coreOfWidth, bitLevels, manchester]

/-- The bits before the toggle bit last 8 units, so a run ends in the toggle bit's middle at 8 and `w` units from the
leader on; a narrower toggle bit shortens that run and the next. -/
theorem runs_coreOfWidth (f : Fields) :
    ∃ xs x y zs, xs.sum + x = 8 ∧
      ∀ w, (mergeLevels (coreOfWidth w f)).map Prod.snd = xs ++ (x + w) :: (y + w) :: zs := by
  obtain ⟨xs, x, y, zs, hsum, hruns⟩ := mergeLevels_bit_width (bitLevels ((headBits f).map (Prod.mk 1))) f.toggle
    (bitLevels ((tailBits f).map (Prod.mk 1)) ++ [(f.cmd.getLsbD 0, 1)])
  refine ⟨xs, x, y, zs, hsum.trans ?_, hruns⟩
  simp [bitLevels_sum, headBits, msbFirst, Function.comp_def]

/-- The captured units behind the leader start with the start bit's first half. -/
theorem coreUnits_head (f : Fields) : ∃ us, coreUnits f = 1 :: us :=
  ⟨_, congrArg (List.map Prod.snd) (mergeLevels_cons_cons_not true 1 1 _)⟩

theorem headerHolds_of_frame {f : Fields} {m : Memory} (h : HoldsUnits m (6 :: 2 :: coreUnits f)) : HeaderHolds m := by
  obtain ⟨us, hus⟩ := coreUnits_head f
  rw [hus] at h
  obtain ⟨a, ha, ha'⟩ := h.entry (k := 0) rfl
  obtain ⟨b, hb, hb'⟩ := h.entry (k := 1) rfl
  obtain ⟨c, hc, hc'⟩ := h.entry (k := 2) rfl
  obtain rfl : a = 6#3 := BitVec.eq_of_toNat_eq ha'
  obtain rfl : b = 2#3 := BitVec.eq_of_toNat_eq hb'
  obtain rfl : c = 1#3 := BitVec.eq_of_toNat_eq hc'
  exact ⟨ha, hb, hc⟩

/-- The compensation of a frame's captured units leaves those of the frame with a toggle bit of 1-unit halves. -/
theorem compensate_of_frame {f : Fields} {m : Memory} (h : HoldsUnits m (6 :: 2 :: coreUnits f)) :
    ∃ t, compensate m = .ok t ∧ HoldsUnits t (6 :: 2 :: (mergeLevels (coreOfWidth 1 f)).map Prod.snd) := by
  obtain ⟨xs, x, y, zs, hsum, hruns⟩ := runs_coreOfWidth f
  have hwide : 6 :: 2 :: coreUnits f = (6 :: 2 :: xs) ++ (x + 1 + 1) :: (y + 1 + 1) :: zs := by
    rw [coreUnits, ← coreOfWidth_two, hruns]
    rfl
  have hpos : ∀ u ∈ 6 :: 2 :: coreUnits f, 1 ≤ u := by
    simpa using fun u hu => (coreUnits_bounds f u hu).1
  have hlen : (6 :: 2 :: coreUnits f).length ≤ 44 := by
    have := (coreUnits_length f).2
    rw [List.length_cons, List.length_cons]
    omega
  rw [hwide] at h hpos hlen
  rw [hruns]
  exact h.compensate_toggle hpos hlen (by rw [List.sum_cons, List.sum_cons]; omega)

/-- The frame with a toggle bit of 1-unit halves demodulates to the frame's bits. -/
theorem demodulate_of_frame {f : Fields} {m : Memory}
    (h : HoldsUnits m (6 :: 2 :: (mergeLevels (coreOfWidth 1 f)).map Prod.snd)) :
    ∃ w, demodulate m = .ok w ∧ w.Sampled (frameSamples f) := by
  have hbits : oddLevels 8 (mergeLevels (coreOfWidth 1 f)) = frameSamples f := by
    rw [coreOfWidth_one, oddLevels_mergeLevels_bitLevels (by decide), frameSamples_eq]
  have hwidth : ∀ c ∈ (headBits f ++ f.toggle :: tailBits f).map (Prod.mk 1), 1 ≤ c.1 ∧ c.1 ≤ 2 := by
    rw [List.forall_mem_map]
    exact fun _ _ => ⟨Nat.le_refl 1, Nat.le_succ 1⟩
  have hpos : ∀ r ∈ mergeLevels (coreOfWidth 1 f), 1 ≤ r.2 := by
    obtain ⟨l, n, rs, hmerge, hn, -, -, hrs⟩ := mergeLevels_bitLevels hwidth (f.cmd.getLsbD 0)
    rw [coreOfWidth_one, hmerge, List.forall_mem_cons]
    exact ⟨hn, fun r hr => (hrs r hr).1⟩
  have hlen : (coreOfWidth 1 f).length = 41 := by
    rw [coreOfWidth_one]
    simp [bitLevels_length, headBits, tailBits, msbFirst]
  have hsum : ((coreOfWidth 1 f).map Prod.snd).sum = 41 := by
    rw [coreOfWidth_one]
    simp [bitLevels_sum, headBits, tailBits, msbFirst, Function.comp_def]
  rw [← hbits]
  refine demodulate_of_runs h (alternates_mergeLevels true 1 _) hpos ?_ ?_
  · rw [mergeLevels_sum, hsum]
  · have := mergeLevels_length_le (coreOfWidth 1 f)
    omega

/-- Settles O51. -/
theorem frameUnitsDecodeToTheirFields : Obligations.FrameUnitsDecodeToTheirFields := by
  unfold Obligations.FrameUnitsDecodeToTheirFields
  intro f m h
  rw [captured_frameUnits] at h
  obtain ⟨m', hm, hnarrow⟩ := compensate_of_frame h
  obtain ⟨w, hw, hbits⟩ := demodulate_of_frame hnarrow
  have hcode : w.code = frameCode f := hbits.code.trans (packSamples_frameSamples f)
  exact ⟨headerOk_eq_true.2 (headerHolds_of_frame h), m', w, hm, hw, hcode, hbits.samples,
    by rw [hcode, fieldsOf_frameCode]⟩

end Sys2Proof.Machine
end

section
/-! PROOFS. The round trip of a well-formed frame over the port (spec/41_decoder.md rule R140). -/

namespace Sys2Proof.Machine

theorem execAll_append_of_next {is js : List Instr} {s t : State} (h : execAll is s = .next t) :
    execAll (is ++ js) s = execAll js t := by
  induction is generalizing s with
  | nil =>
    obtain rfl := Host.Outcome.next.inj h
    rfl
  | cons i is ih =>
    cases he : exec i s with
    | next u =>
      rw [execAll_cons_of_next is he] at h
      rw [List.cons_append, execAll_cons_of_next _ he, ih h]
    | fault f => simp [execAll, he] at h
    | refused r => simp [execAll, he] at h

theorem execAll_singleton (i : Instr) (s : State) : execAll [i] s = exec i s := by
  cases h : exec i s <;> simp [execAll, h]

/-- No command sequence writes the parameters or the words not yet accepted. -/
theorem execAll_outside {is : List Instr} {s t : State} (h : execAll is s = .next t) : SameOutside s t := by
  induction is generalizing s with
  | nil =>
    obtain rfl := Host.Outcome.next.inj h
    exact SameOutside.refl s
  | cons i is ih =>
    cases he : exec i s with
    | next u =>
      rw [execAll_cons_of_next is he] at h
      exact (exec_outside he).1.trans (ih h)
    | fault f => simp [execAll, he] at h
    | refused r => simp [execAll, he] at h

/-- The EDGE times of a sequence that fits its units are operands a word can carry. -/
theorem lt_of_mem_of_fitsUnits {p : Params} {last : Nat} {ts us : List Nat} (h : fitsUnits p last ts us = true) :
    ∀ t ∈ ts, t < 2 ^ p.clkW := by
  induction us generalizing last ts with
  | nil =>
    cases ts with
    | nil => simp
    | cons t ts => cases h
  | cons u us ih =>
    obtain ⟨t, rest, q, rfl, ht, -, -, hrest⟩ := fitsUnits_cons h
    exact List.forall_mem_cons.2 ⟨ht, ih hrest⟩

/-- An elapsed time of TH4 or more is INVALID (R100). -/
theorem classify_of_th4_le {p : Params} {e : Nat} (hp : p.wf = true) (h : p.th4 ≤ e) : classify p e = none := by
  obtain ⟨hclasses, -⟩ := classifyFollowsThresholds
  obtain ⟨-, -, -, -, hinvalid, -⟩ := hclasses p e hp
  exact hinvalid.2 h

/-- The EDGEs of a well-formed frame leave a message that decodes to the frame (R112, R140). -/
theorem execAll_frame {s : State} {f : Fields} {t0 : Nat} {ts : List Nat} (hs : s.Inv) (hen : s.captureEn = true)
    (ht0 : t0 < 2 ^ s.params.clkW) (he : s.params.th4 ≤ elapsed s.params.clkW t0 s.lastTs)
    (hfits : fitsUnits s.params t0 ts (frameUnits f) = true) :
    ∃ u m w, execAll ((t0 :: ts).map Instr.edge) s = .next u ∧ u.msgReady = true ∧ HeaderHolds u.seq ∧
      compensate u.seq = .ok m ∧ demodulate m = .ok w ∧ w.code = frameCode f ∧ w.samples = 21 ∧
      fieldsOf w.code = f := by
  obtain ⟨u, hu, hready, -, -, -, -, -, hunits⟩ :=
    frameCaptureCompletesAtFiftyOne s f t0 ts hs hen ht0 (classify_of_th4_le hs.params_wf he) hfits
  obtain ⟨hhead, m, w, hm, hw, hdecode⟩ := frameUnitsDecodeToTheirFields f u.seq hunits
  exact ⟨u, m, w, hu, hready, headerOk_eq_true.1 hhead, hm, hw, hdecode⟩

/-- The port's words of EDGEs and one more command run to where that command takes the state the EDGEs leave (R60). -/
theorem run_edges_then {s u t : State} {i : Instr} {ts rest : List Nat} (hts : ∀ t ∈ ts, t < 2 ^ s.params.clkW)
    (hi : WellFormed s.params.clkW i = true)
    (hcmds : s.cmds = (ts.map Instr.edge ++ [i]).map (encode s.params.clkW) ++ rest)
    (hu : execAll (ts.map Instr.edge) { s with cmds := rest } = .next u) (ht : exec i u = .next t) :
    Host.Core.run core (ts.length + 1) s = .next t ∧ t.cmds = rest := by
  have hwf : ∀ j ∈ ts.map Instr.edge ++ [i], WellFormed s.params.clkW j = true := by
    intro j hj
    rcases List.mem_append.1 hj with hj | hj
    · obtain ⟨x, hx, rfl⟩ := List.mem_map.1 hj
      exact decide_eq_true (hts x hx)
    · rwa [List.mem_singleton.1 hj]
  have hrun := runFollowsAcceptedOrder _ s rest hwf hcmds
  rw [execAll_append_of_next hu, execAll_singleton, ht] at hrun
  obtain ⟨-, hport⟩ := (execAll_outside hu).trans (exec_outside ht).1
  rw [List.length_append, List.length_map, List.length_singleton] at hrun
  exact ⟨hrun, hport⟩

/-- Settles O53. The frame is captured with the words behind the poll's at the port, and the poll then answers from the
message. -/
theorem wellFormedFrameRoundTrip : Obligations.WellFormedFrameRoundTrip := by
  unfold Obligations.WellFormedFrameRoundTrip
  intro s f t0 ts rest hs hen ht0 he hfits
  have hts : ∀ t ∈ t0 :: ts, t < 2 ^ s.params.clkW :=
    List.forall_mem_cons.2 ⟨ht0, lt_of_mem_of_fitsUnits hfits⟩
  obtain ⟨u, m, w, hu, -, -, hm, hw, -, hsamples, -⟩ := execAll_frame hs hen ht0 he hfits
  have hport : ({ s with cmds := rest } : State).Inv := hs.of_sameItems (SameItems.refl s) rfl
  obtain ⟨u', m', w', hu', hready, hhead, hm', hw', hcode, -, hfields⟩ := execAll_frame hport hen ht0 he hfits
  refine ⟨⟨u, m, w, hu, hm, hw, hsamples⟩, fun hcmds => ?_, fun hcmds => ?_⟩
  · obtain ⟨hrun, hrest⟩ := run_edges_then hts rfl hcmds hu' (exec_pollCode_of_ready hready hhead hm' hw')
    exact ⟨_, hrun, by rw [State.respond_resp, hcode], hrest⟩
  · obtain ⟨hrun, hrest⟩ := run_edges_then hts rfl hcmds hu' (exec_pollFields_of_ready hready hhead hm' hw')
    exact ⟨_, hrun, by rw [State.respond_resp, hfields], hrest⟩

end Sys2Proof.Machine
end

section
/-! PROOFS. The control command NOP (spec/42_control.md rule R170). -/

namespace Sys2Proof.Machine

/-- NOP is taken and does nothing more (R170). -/
theorem exec_nop (s : State) : exec .nop s = .next s.accept := rfl

theorem sameOutside_accept (s : State) : SameOutside s s.accept := ⟨s.accept_params, s.accept_cmds⟩

/-- Settles O13: taking a command only clears the response and the outcome. -/
theorem nopChangesNothing : Obligations.NopChangesNothing := by
  unfold Obligations.NopChangesNothing
  intro s
  exact ⟨s.accept, exec_nop s, sameItems_accept s, sameOutside_accept s, s.accept_resp, s.accept_outcome⟩

end Sys2Proof.Machine
end

section
/-! PROOFS. Every command completes (spec/60_exceptions.md rule R180): from a state that meets the invariant neither EDGE
nor DECODE reaches one of the model's faults, and a word without a reserved op is a command. -/

namespace Sys2Proof.Machine

/-! ### EDGE -/

theorem storeIndex_le_cap {s : State} (hs : s.Inv) (u : Quantum) : storeIndex s u ≤ Config.cap := by
  by_cases hu : u = .u6
  · simp [hu, storeIndex_u6]
  · rw [storeIndex_of_ne s hu]
    exact hs.cursor_le

/-- An admitted EDGE answers: an INVALID interval, a full sequence, or a free entry for its unit (R105 to R108). -/
theorem admitEdge_answers {s : State} (hs : s.Inv) (ts : Nat) : ∃ t, admitEdge s ts = .ok t := by
  cases hclass : classify s.params (elapsed s.params.clkW ts s.lastTs) with
  | none => exact ⟨_, admitEdge_of_invalid hclass⟩
  | some u =>
    rcases Nat.lt_or_eq_of_le (storeIndex_le_cap hs u) with hroom | hfull
    · obtain ⟨a, -, hadmit⟩ := admitEdge_of_room hclass hroom
      exact ⟨_, hadmit⟩
    · exact ⟨_, admitEdge_of_full hclass (by simpa [storeIndex] using hfull)⟩

/-! ### DECODE and the polls -/

/-- DECODE of a message with another header than (6, 2, 1) re-arms and answers none (R133, R185). -/
theorem decodeMsg_of_malformed {s : State} {a b c : Entry} (ha : s.seq.entry 0 = some a) (hb : s.seq.entry 1 = some b)
    (hc : s.seq.entry 2 = some c) (hne : (a, b, c) ≠ Config.hdr) :
    decodeMsg s = .ok (s.consume.rearm.record .headerFail, none) :=
  decodeMsg_eq_ok.2 (.inl ⟨headerOk_eq_ok.2 ⟨a, b, c, ha, hb, hc, (decide_eq_false hne).symm⟩, rfl, rfl⟩)

/-- DECODE of a buffered message answers, whether its header holds or not (R132 to R136). -/
theorem decodeMsg_answers {s : State} (hs : s.Inv) (hready : s.msgReady = true) :
    ∃ t c, decodeMsg s = .ok (t, c) := by
  obtain ⟨-, -, hcursor⟩ := hs.message_length hready
  obtain ⟨x, hx, -⟩ := hs.entries 0 (by omega)
  obtain ⟨y, hy, -⟩ := hs.entries 1 (by omega)
  obtain ⟨z, hz, -⟩ := hs.entries 2 (by omega)
  by_cases hhdr : (x, y, z) = Config.hdr
  · have hok : headerOk s.seq = .ok true := headerOk_eq_ok.2 ⟨x, y, z, hx, hy, hz, (decide_eq_true hhdr).symm⟩
    obtain ⟨m, hm⟩ := compensate_answers (hs.toggleOff_lt hready) hs.units hs.cursor_le
    obtain ⟨last, hw, -⟩ := hs.demodulate_eq_walkAt hready (headerOk_eq_true.1 hok) hm
    exact ⟨_, _, decodeMsg_eq_ok.2 (.inr ⟨m, _, hok, hm, hw, rfl, rfl⟩)⟩
  · exact ⟨_, _, decodeMsg_of_malformed hx hy hz hhdr⟩

/-- DECODE records HEADER_FAIL or DECODED (R182). -/
theorem decodeMsg_outcome {s t : State} {c : Option Code} (h : decodeMsg s = .ok (t, c)) :
    t.outcome = some .headerFail ∨ ∃ code, t.outcome = some (.decoded code) := by
  rcases decodeMsg_eq_ok.1 h with ⟨-, rfl, -⟩ | ⟨m, w, -, -, -, rfl, -⟩
  · exact .inl rfl
  · exact .inr ⟨w.code, rfl⟩

theorem pollMsg_answers {s : State} (hs : s.Inv) : ∃ t c, pollMsg s = .ok (t, c) := by
  cases hready : s.msgReady with
  | false => exact ⟨_, _, pollMsg_eq_ok.2 (.inl ⟨hready, rfl, rfl⟩)⟩
  | true =>
    obtain ⟨t, c, hd⟩ := decodeMsg_answers hs hready
    exact ⟨t, c, pollMsg_eq_ok.2 (.inr ⟨hready, hd⟩)⟩

/-! ### Commands -/

theorem exec_answers {s : State} (hs : s.Inv) (i : Instr) : ∃ t, exec i s = .next t := by
  cases i with
  | nop => exact ⟨_, exec_nop s⟩
  | edge ts =>
    cases hen : s.captureEn with
    | false => exact ⟨_, execEdge_of_disabled hen⟩
    | true =>
      obtain ⟨t, ht⟩ := admitEdge_answers hs.accept (operandTs s.params ts)
      exact ⟨t, execEdge_eq_next.2 (.inr ⟨hen, ht⟩)⟩
  | pollCode =>
    obtain ⟨d, c, hp⟩ := pollMsg_answers hs.accept
    exact ⟨_, execPollCode_eq_next.2 ⟨d, c, hp, rfl⟩⟩
  | pollFields =>
    obtain ⟨d, c, hp⟩ := pollMsg_answers hs.accept
    exact ⟨_, execPollFields_eq_next.2 ⟨d, c, hp, rfl⟩⟩
  | reset => exact ⟨_, rfl⟩

/-- Settles O16. -/
theorem everyCommandCompletes : Obligations.EveryCommandCompletes := by
  unfold Obligations.EveryCommandCompletes
  intro s i hs
  exact exec_answers hs i

/-! ### Traces -/

/-- A word below op 101 is a command: it is too small for a reserved op and for the port's width (R71, R74). -/
theorem decode_of_commandWord {clkW w : Nat} (h : commandWord clkW w = true) : ∃ i, decode clkW w = .ok i := by
  have hlt : w < 5 * 2 ^ clkW := of_decide_eq_true h
  cases hd : decode clkW w with
  | ok i => exact ⟨i, rfl⟩
  | error e =>
    cases e with
    | reservedOp op =>
      obtain ⟨-, rfl, hop⟩ := decode_eq_reservedOp.1 hd
      exact absurd (Nat.div_lt_of_lt_mul (by rwa [Nat.mul_comm])) (Nat.not_lt.2 hop)
    | wordTooWide =>
      have hwide := decode_eq_wordTooWide.1 hd
      rw [Nat.pow_add] at hwide
      omega

/-- The words at the port carry no reserved op (R74). -/
def State.Unreserved (s : State) : Prop := ∀ w ∈ s.cmds, commandWord s.params.clkW w = true

/-- A step of a trace without reserved ops answers, and the trace goes on without them. -/
theorem step_answers {s : State} (hs : s.Inv) (hwords : s.Unreserved) :
    ∃ t, step s = .next t ∧ t.Inv ∧ t.Unreserved := by
  cases hcmds : s.cmds with
  | nil => exact ⟨s.accept, step_of_nil hcmds, hs.accept, hwords⟩
  | cons w rest =>
    obtain ⟨hw, hrest⟩ :
        commandWord s.params.clkW w = true ∧ ∀ v ∈ rest, commandWord s.params.clkW v = true := by
      simpa [State.Unreserved, hcmds] using hwords
    obtain ⟨i, hdec⟩ := decode_of_commandWord hw
    have htaken : ({ s with cmds := rest } : State).Inv := hs.of_sameItems (SameItems.refl s) rfl
    obtain ⟨t, ht⟩ := exec_answers htaken i
    obtain ⟨⟨hparams, hport⟩, -⟩ := exec_outside ht
    refine ⟨t, (step_of_decode_ok hcmds hdec).trans ht, htaken.exec ht, ?_⟩
    rw [State.Unreserved, hparams, hport]
    exact hrest

theorem run_succ_of_step {s t : State} (k : Nat) (h : step s = .next t) :
    Host.Core.run core (k + 1) s = Host.Core.run core k t := by
  simp only [Host.Core.run, core, h]

/-- Settles O17, by induction on the steps. -/
theorem unreservedTraceNeverStops : Obligations.UnreservedTraceNeverStops := by
  unfold Obligations.UnreservedTraceNeverStops
  intro s k hs hwords
  induction k generalizing s with
  | zero => exact ⟨s, rfl, hs⟩
  | succ k ih =>
    obtain ⟨t, hstep, ht, hleft⟩ := step_answers hs hwords
    rw [run_succ_of_step k hstep]
    exact ih t ht hleft

end Sys2Proof.Machine
end

section
/-! PROOFS. The outcomes of EDGE and of the polls (spec/60_exceptions.md rules R181 to R187): the cause of each, their
code numbers, and what stays pending or is consumed. -/

namespace Sys2Proof.Machine

/-! ### The outcomes of EDGE -/

/-- A command has one answer. -/
theorem exec_next_unique {i : Instr} {s t u : State} (h : exec i s = .next t) (hu : exec i s = .next u) : u = t :=
  Host.Outcome.next.inj (hu.symm.trans h)

/-- An elapsed time from TH3 on and below TH4 is a unit 6 (R100). -/
theorem classify_of_th3_le {p : Params} {e : Nat} (hp : p.wf = true) (h3 : p.th3 ≤ e) (h4 : e < p.th4) :
    classify p e = some .u6 := by
  obtain ⟨hclasses, -⟩ := classifyFollowsThresholds
  obtain ⟨-, -, -, hleader, -⟩ := hclasses p e hp
  exact hleader.2 ⟨h3, h4⟩

/-- From a state that meets the invariant an admitted EDGE whose unit meets a free entry appends it: SUM is at most 50
while capturing (R108, I5 of R32). -/
theorem edgeAppends_of_exec {s t : State} {ts : Nat} {u : Quantum} (hs : s.Inv) (hts : ts < 2 ^ s.params.clkW)
    (hen : s.captureEn = true) (hclass : classify s.params (elapsed s.params.clkW ts s.lastTs) = some u)
    (hroom : storeIndex s u < 44) (h : exec (.edge ts) s = .next t) : EdgeAppends s t ts u := by
  have hready : s.msgReady = false := by simpa [hs.flags] using hen
  have hsum := (hs.leaderReset hready u).sum_capturing (by simpa using hready)
  obtain ⟨v, hv, happends⟩ := exec_edge_appends hts hen hclass hroom hsum
  rwa [exec_next_unique h hv] at happends

/-- A leader's EDGE says LEADER_RESTART: a 6 alone completes no message (R106). -/
theorem EdgeAppends.outcome_of_leader {s t : State} {ts : Nat} (h : EdgeAppends s t ts .u6) :
    t.outcome = some (.leaderRestart (elapsed s.params.clkW ts s.lastTs)) := by
  have hsum : t.sum.toNat = 6 := by simpa [Quantum.bits] using h.sum
  obtain ⟨-, -, hout⟩ := h.continues (by omega)
  exact hout

/-- The EDGE of a unit 1, 2 or 3 says COMPLETE with the new CURSOR, or APPEND, as SUM passes 50 or not (R109). -/
theorem EdgeAppends.outcome_of_ne {s t : State} {ts : Nat} {u : Quantum} (h : EdgeAppends s t ts u) (hu : u ≠ .u6) :
    (50 < s.sum.toNat + u.bits.toNat → t.outcome = some (.complete (s.cursor + 1#6))) ∧
      (s.sum.toNat + u.bits.toNat ≤ 50 → t.outcome = some (.append u)) := by
  have hsum := h.sum
  have hcursor := h.cursor
  rw [State.leaderReset_of_ne s hu] at hsum
  rw [storeIndex_of_ne s hu] at hcursor
  have hnext : t.cursor = s.cursor + 1#6 := by bv_omega
  rw [← hsum, ← hnext]
  refine ⟨fun hover => ?_, fun hbelow => ?_⟩
  · obtain ⟨-, -, hout⟩ := h.completes hover
    exact hout
  · obtain ⟨-, -, hout⟩ := h.continues hbelow
    rwa [if_neg hu] at hout

/-- Settles O33: each cause selects one branch of EDGE. -/
theorem edgeOutcomeFollowsItsCause : Obligations.EdgeOutcomeFollowsItsCause := by
  unfold Obligations.EdgeOutcomeFollowsItsCause
  rintro s t ts e hs hts rfl h
  refine ⟨fun hen => ?_, fun hen => ⟨fun h4 => ?_, fun h3 h4 => ?_, fun u hu hclass => ?_⟩⟩
  · obtain rfl := exec_next_unique h (execEdge_of_disabled hen)
    rw [State.record_outcome, operandTs_of_lt hts]
  · have hinvalid := admitEdge_of_invalid (s := s.accept) (classify_of_th4_le hs.params_wf h4)
    obtain rfl := exec_next_unique h (exec_edge_of_admitEdge hts hen hinvalid)
    rfl
  · have hclass := classify_of_th3_le hs.params_wf h3 h4
    exact (edgeAppends_of_exec hs hts hen hclass (by simp [storeIndex_u6]) h).outcome_of_leader
  · have hunit (hroom : s.cursor.toNat < 44) :=
      (edgeAppends_of_exec hs hts hen hclass (by rwa [storeIndex_of_ne s hu]) h).outcome_of_ne hu
    refine ⟨fun hfull => ?_, fun hroom => (hunit hroom).1, fun hroom => (hunit hroom).2⟩
    have hadmit := admitEdge_of_full (s := s.accept) (ts := ts) hclass (by simp [hu, hfull])
    obtain rfl := exec_next_unique h (exec_edge_of_admitEdge hts hen hadmit)
    rfl

/-- Settles O34. -/
theorem outcomesHaveTheirCodes : Obligations.OutcomesHaveTheirCodes := by
  unfold Obligations.OutcomesHaveTheirCodes
  intro u e ts n c
  exact ⟨rfl, rfl, rfl, rfl, rfl, rfl, rfl, rfl, rfl⟩

/-! ### The outcomes of the polls -/

/-- Settles O36: the shared part of the polls is a DECODE that fails on the header. -/
theorem malformedHeaderIsConsumed : Obligations.MalformedHeaderIsConsumed := by
  unfold Obligations.MalformedHeaderIsConsumed
  intro s a b c hready ha hb hc hne
  have hpoll : pollMsg s.accept = .ok (s.accept.consume.rearm.record .headerFail, none) :=
    pollMsg_eq_ok.2 (.inr ⟨hready, decodeMsg_of_malformed (s := s.accept) ha hb hc hne⟩)
  exact ⟨⟨_, execPollCode_eq_next.2 ⟨_, _, hpoll, rfl⟩, rfl, rfl, rfl, rfl, rfl, rfl, SameOutside.refl s, rfl, rfl⟩,
    ⟨_, execPollFields_eq_next.2 ⟨_, _, hpoll, rfl⟩, rfl, rfl, rfl, rfl, rfl, rfl, SameOutside.refl s, rfl, rfl⟩⟩

/-- Commands each of which completes and keeps the items, wherever the items are those of `s`, do so in sequence. -/
theorem execAll_sameItems {is : List Instr} {s : State}
    (h : ∀ i ∈ is, ∀ t, SameItems s t → ∃ u, exec i t = .next u ∧ SameItems t u) :
    ∃ t, execAll is s = .next t ∧ SameItems s t := by
  induction is generalizing s with
  | nil => exact ⟨s, rfl, SameItems.refl s⟩
  | cons i is ih =>
    obtain ⟨t, ht, hst⟩ := h i (by simp) s (SameItems.refl s)
    obtain ⟨u, hu, htu⟩ := ih fun j hj v htv => h j (by simp [hj]) v (hst.trans htv)
    exact ⟨u, (execAll_cons_of_next is ht).trans hu, hst.trans htu⟩

/-- Without a message NOP and both polls complete and change no item (R130, R131, R170). -/
theorem exec_nop_or_poll_of_not_ready {i : Instr} {s : State} (hi : i = .nop ∨ i = .pollCode ∨ i = .pollFields)
    (hready : s.msgReady = false) : ∃ t, exec i s = .next t ∧ SameItems s t := by
  rcases hi with rfl | rfl | rfl
  · exact ⟨_, exec_nop s, sameItems_accept s⟩
  · exact ⟨_, exec_pollCode_of_not_ready hready, SameItems.refl s⟩
  · exact ⟨_, exec_pollFields_of_not_ready hready, SameItems.refl s⟩

/-- Settles O47. MSG_READY is one of the items kept, so the next command finds no message either. -/
theorem partialCaptureStaysPending : Obligations.PartialCaptureStaysPending := by
  unfold Obligations.PartialCaptureStaysPending
  intro is s hready his
  obtain ⟨t, ht, hsame⟩ := execAll_sameItems fun i hi u hsu =>
    exec_nop_or_poll_of_not_ready (his i hi) (hsu.msgReady.trans hready)
  have hnone : t.msgReady = false := hsame.msgReady.trans hready
  exact ⟨t, ht, hsame, ⟨_, exec_pollCode_of_not_ready hnone, rfl⟩, ⟨_, exec_pollFields_of_not_ready hnone, rfl⟩⟩

/-- Settles O49. The EDGE leaves a buffered message, which the POLL_CODE decodes; the POLL_CODE before it leaves the
items the EDGE works on. -/
theorem completingEdgeAndPollInEitherOrder : Obligations.CompletingEdgeAndPollInEitherOrder := by
  unfold Obligations.CompletingEdgeAndPollInEitherOrder
  intro s t ts hs hready h hcomplete
  constructor
  · obtain ⟨d, c, hd⟩ := decodeMsg_answers (hs.exec h).accept hcomplete
    have hpoll : pollMsg t.accept = .ok (d, c) := pollMsg_eq_ok.2 (.inr ⟨hcomplete, hd⟩)
    exact ⟨_, execPollCode_eq_next.2 ⟨d, c, hpoll, rfl⟩, decodeMsg_outcome (t := d) hd⟩
  · obtain ⟨hedge, -⟩ := nothingElsePersists s ((s.accept.record .noMessage).respond (.code none)) (.edge ts)
      (SameItems.refl s) rfl
    obtain ⟨w, hw, hsame, -, hout⟩ := hedge t h
    exact ⟨_, w, exec_pollCode_of_not_ready hready, rfl, hw, hsame, hout⟩

end Sys2Proof.Machine
end

section
/-! PROOFS. The waiting step and RESET (spec/42_control.md rule R171, spec/70_reset_and_hazards.md rules R200, R201). -/

namespace Sys2Proof.Machine

/-- Settles O8: waiting only clears the response and the outcome. -/
theorem waitingStepKeepsItems : Obligations.WaitingStepKeepsItems := by
  unfold Obligations.WaitingStepKeepsItems
  intro s hcmds
  exact ⟨s.accept, step_of_nil hcmds, sameItems_accept s, sameOutside_accept s, s.accept_resp, s.accept_outcome⟩

/-- RESET is taken and puts the six items at their reset values (R171). -/
theorem exec_reset (s : State) : exec .reset s = .next s.accept.clearAll := rfl

/-- The six items after RESET are those at power-up with the same parameters (R200, R201). -/
theorem sameItems_resetWith_clearAll (s : State) (c : List Nat) :
    SameItems (State.resetWith s.params c) s.accept.clearAll :=
  ⟨rfl, rfl, rfl, rfl, rfl, rfl⟩

/-- The cleared state is already at the reset values (R171). -/
theorem sameItems_clearAll_clearAll (s : State) : SameItems s.clearAll s.clearAll.accept.clearAll :=
  ⟨rfl, rfl, rfl, rfl, rfl, rfl⟩

theorem State.phase_clearAll (s : State) : s.clearAll.phase = some .capturing := by
  simp [State.phase]

/-- Settles O11. The state RESET leaves holds no message, so a POLL_CODE finds none. -/
theorem resetLeavesResetState : Obligations.ResetLeavesResetState := by
  unfold Obligations.ResetLeavesResetState
  intro s
  exact ⟨s.accept.clearAll, exec_reset s, rfl, rfl, rfl, rfl, rfl, Memory.entry_nil, State.phase_clearAll _, rfl, rfl,
    ⟨rfl, rfl⟩, ⟨_, exec_reset _, sameItems_clearAll_clearAll _⟩, ⟨_, exec_pollCode_of_not_ready rfl, rfl⟩⟩

/-- Settles O12. The power-up state is itself one of the states with the parameters `p`. -/
theorem powerUpIsResetState : Obligations.PowerUpIsResetState := by
  unfold Obligations.PowerUpIsResetState
  intro p c
  have hreset (s : State) (hp : s.params = p) :
      ∃ t, exec .reset s = .next t ∧ SameItems (State.resetWith p c) t := by
    subst hp
    exact ⟨_, exec_reset s, sameItems_resetWith_clearAll s c⟩
  exact ⟨hreset (State.resetWith p c) rfl, hreset⟩

end Sys2Proof.Machine
end

section
/-! PROOFS. The hazards of a clock that wraps and of edges lost while a message is buffered
(spec/70_reset_and_hazards.md rules R203, R205, R207). -/

namespace Sys2Proof.Machine

/-! ### Intervals longer than a turn of the clock -/

/-- Between the clock values of two times stands the interval between them, less its whole turns (R102). -/
theorem elapsed_clock_add (clkW t x : Nat) :
    elapsed clkW ((t + x) % 2 ^ clkW) (t % 2 ^ clkW) = x % 2 ^ clkW := by
  have hmod := elapsed_eq_emod clkW ((t + x) % 2 ^ clkW) (t % 2 ^ clkW)
  rw [Int.natCast_emod, Int.natCast_emod, ← Int.sub_emod, Int.natCast_add, add_sub_cancel_left,
    ← Int.natCast_emod] at hmod
  exact Int.ofNat.inj hmod

/-- Settles O25. The k turns drop out of the remainder. -/
theorem longIntervalsAlias : Obligations.LongIntervalsAlias := by
  unfold Obligations.LongIntervalsAlias
  intro p t k d hd
  have hturns : (k * 2 ^ p.clkW + d) % 2 ^ p.clkW = d := by
    rw [Nat.mul_add_mod_self_right, Nat.mod_eq_of_lt hd]
  have halias : elapsed p.clkW ((t + k * 2 ^ p.clkW + d) % 2 ^ p.clkW) (t % 2 ^ p.clkW) = d := by
    rw [Nat.add_assoc, elapsed_clock_add, hturns]
  exact ⟨halias, by rw [halias]⟩

/-! ### The first EDGE after the re-arm -/

/-- The poll of a buffered message empties the sequence, re-arms, and leaves LAST_TS where it was (R132, R136). -/
theorem exec_poll_of_ready {i : Instr} {s t : State} (hi : i = .pollCode ∨ i = .pollFields) (hready : s.msgReady = true)
    (h : exec i s = .next t) : t.cursor = 0#6 ∧ t.sum = 0#6 ∧ t.captureEn = true ∧ t.lastTs = s.lastTs := by
  rcases exec_poll_cases hi h with ⟨hnone, -⟩ | ⟨-, d, c, r, hd, rfl⟩
  · simp [hready] at hnone
  · obtain ⟨hcursor, hsum, -, hen, hlast, -⟩ := decodeMsg_frame hd
    exact ⟨hcursor, hsum, hen, hlast⟩

/-- An EDGE that meets an empty sequence leaves it empty, or makes its unit the first entry (R105, R106, R108). -/
theorem exec_edge_of_empty {s : State} {ts : Nat} (hts : ts < 2 ^ s.params.clkW) (hen : s.captureEn = true)
    (hcursor : s.cursor = 0#6) (hsum : s.sum = 0#6) :
    ∃ u, exec (.edge ts) s = .next u ∧ u.lastTs = ts ∧
      (classify s.params (elapsed s.params.clkW ts s.lastTs) = none → u.cursor = 0#6 ∧ u.sum = 0#6) ∧
      ∀ q, classify s.params (elapsed s.params.clkW ts s.lastTs) = some q →
        u.cursor = 1#6 ∧ u.sum.toNat = q.bits.toNat ∧ u.seq.entry 0 = some q.bits := by
  cases hclass : classify s.params (elapsed s.params.clkW ts s.lastTs) with
  | none =>
    obtain ⟨u, hexec, hcursor', hsum', -, hlast, -⟩ := invalidIntervalEmptiesSequence s ts hts hen hclass
    exact ⟨u, hexec, hlast, fun _ => ⟨hcursor', hsum'⟩, by simp⟩
  | some q =>
    obtain ⟨u, hexec, happ, hu⟩ := exec_edge_holds (State.holds_nil hcursor hsum) hen hts hclass (by simp) (by simp)
      fun _ => rfl
    obtain ⟨v, hv, hunits⟩ := hu.seq.entry (k := 0) rfl
    refine ⟨u, hexec, happ.lastTs, by simp, ?_⟩
    rintro _ ⟨⟩
    exact ⟨BitVec.eq_of_toNat_eq hu.cursor, by simpa using hu.sum, by rw [hv, BitVec.eq_of_toNat_eq hunits]⟩

/-- Settles O50. The lost EDGEs keep every item and the poll keeps LAST_TS, so the EDGE behind them meets an empty
sequence and the completing edge's time. -/
theorem firstEdgeAfterRearmIsMeasuredFromCompletion : Obligations.FirstEdgeAfterRearmIsMeasuredFromCompletion := by
  unfold Obligations.FirstEdgeAfterRearmIsMeasuredFromCompletion
  intro is s ts hs hready his hts
  obtain ⟨s', hlost, hsame⟩ := handOffKeepsMessage is s hs hready his
  have hkept := execAll_outside hlost
  obtain ⟨t, hpoll⟩ := exec_answers (hs.of_sameItems hsame hkept.1) .pollCode
  obtain ⟨hcursor, hsum, hen, hpolled⟩ := exec_poll_of_ready (.inl rfl) (hsame.msgReady.trans hready) hpoll
  obtain ⟨hparams, -⟩ := hkept.trans (exec_outside hpoll).1
  have hlast : t.lastTs = s.lastTs := by
    obtain ⟨-, -, -, -, -, hsameTs⟩ := hsame
    exact hpolled.trans hsameTs
  obtain ⟨u, hu⟩ := exec_edge_of_empty (by rwa [hparams]) hen hcursor hsum
  rw [hparams, hlast] at hu
  exact ⟨t, u, by rw [execAll_append_of_next hlost, execAll_singleton, hpoll], hu⟩

end Sys2Proof.Machine
end
